-- ==== Sys2Proof/Word.lean ====
section
/-! DEFINITION. The bit strings of the machine, under the spec's names for their widths (00_scope.md section 8: byte,
half-word, word, double word = 8, 16, 32, 64 bits), and the numbers of the general registers. -/

namespace Sys2Proof

/-- A byte: 8 bits. -/
abbrev Byte := BitVec 8

/-- A half-word: 16 bits. -/
abbrev Half := BitVec 16

/-- A word: 32 bits; also the length of every instruction (R60). -/
abbrev Word := BitVec 32

/-- A double word: 64 bits, the width GRLEN of a general register (R2) and of the program counter (R26). -/
abbrev DWord := BitVec 64

/-- The number of a general register, 0 to 31 (R16, R20). -/
abbrev Reg := Fin 32

end Sys2Proof
end

