-- ==== Sys2Proof/Syntax.lean ====
section
/-! DEFINITION. The 28 instructions (R1), one constructor for each row of spec/opcode_table.json, in the manual's order,
with the operands of the row in assembly order (R69). The ranges of R16 and R63 are carried by the types: a register number
is below 32, sa2 below 4, sa3 below 8, msbw and lsbw below 32, msbd and lsbd below 64. -/

namespace Sys2Proof

/-- An instruction of the scope as an assembly term (R69). -/
inductive Instr where
  | extWB (rd rj : Reg)                             -- ext.w.b    R101
  | extWH (rd rj : Reg)                             -- ext.w.h    R102
  | cloW (rd rj : Reg)                              -- clo.w      R111
  | clzW (rd rj : Reg)                              -- clz.w      R112
  | ctoW (rd rj : Reg)                              -- cto.w      R113
  | ctzW (rd rj : Reg)                              -- ctz.w      R114
  | cloD (rd rj : Reg)                              -- clo.d      R115
  | clzD (rd rj : Reg)                              -- clz.d      R116
  | ctoD (rd rj : Reg)                              -- cto.d      R117
  | ctzD (rd rj : Reg)                              -- ctz.d      R118
  | bytepickW (rd rj rk : Reg) (sa2 : Fin 4)        -- bytepick.w R121
  | bytepickD (rd rj rk : Reg) (sa3 : Fin 8)        -- bytepick.d R122
  | revb2H (rd rj : Reg)                            -- revb.2h    R131
  | revb4H (rd rj : Reg)                            -- revb.4h    R132
  | revb2W (rd rj : Reg)                            -- revb.2w    R133
  | revbD (rd rj : Reg)                             -- revb.d     R134
  | revh2W (rd rj : Reg)                            -- revh.2w    R141
  | revhD (rd rj : Reg)                             -- revh.d     R142
  | bitrev4B (rd rj : Reg)                          -- bitrev.4b  R151
  | bitrev8B (rd rj : Reg)                          -- bitrev.8b  R152
  | bitrevW (rd rj : Reg)                           -- bitrev.w   R161
  | bitrevD (rd rj : Reg)                           -- bitrev.d   R162
  | bstrinsW (rd rj : Reg) (msbw lsbw : Fin 32)     -- bstrins.w  R171
  | bstrinsD (rd rj : Reg) (msbd lsbd : Fin 64)     -- bstrins.d  R172
  | bstrpickW (rd rj : Reg) (msbw lsbw : Fin 32)    -- bstrpick.w R181
  | bstrpickD (rd rj : Reg) (msbd lsbd : Fin 64)    -- bstrpick.d R182
  | maskeqz (rd rj rk : Reg)                        -- maskeqz    R191
  | masknez (rd rj rk : Reg)                        -- masknez    R192
  deriving DecidableEq, Repr

end Sys2Proof
end

