-- ==== Sys2Proof/WellFormed.lean ====
section
/-! DEFINITION. The one check on an instruction term that its types do not make: a bit-string form has msb >= lsb
(R173, R183: "a well-formedness check on assembly terms rejects it"). -/

namespace Sys2Proof

/-- Whether the term has admissible operands (R200): msb >= lsb in the four bit-string forms, no condition in the others. -/
def Instr.wellFormed : Instr → Bool
  | .extWB _ _ => true
  | .extWH _ _ => true
  | .cloW _ _ => true
  | .clzW _ _ => true
  | .ctoW _ _ => true
  | .ctzW _ _ => true
  | .cloD _ _ => true
  | .clzD _ _ => true
  | .ctoD _ _ => true
  | .ctzD _ _ => true
  | .bytepickW _ _ _ _ => true
  | .bytepickD _ _ _ _ => true
  | .revb2H _ _ => true
  | .revb4H _ _ => true
  | .revb2W _ _ => true
  | .revbD _ _ => true
  | .revh2W _ _ => true
  | .revhD _ _ => true
  | .bitrev4B _ _ => true
  | .bitrev8B _ _ => true
  | .bitrevW _ _ => true
  | .bitrevD _ _ => true
  | .bstrinsW _ _ msbw lsbw => decide (lsbw ≤ msbw)
  | .bstrinsD _ _ msbd lsbd => decide (lsbd ≤ msbd)
  | .bstrpickW _ _ msbw lsbw => decide (lsbw ≤ msbw)
  | .bstrpickD _ _ msbd lsbd => decide (lsbd ≤ msbd)
  | .maskeqz _ _ _ => true
  | .masknez _ _ _ => true

end Sys2Proof
end

