-- ==== Sys2Proof/Decode.lean ====
section
/-! DEFINITION. Words and bytes (R42), the opcode table (R65), the decoder (R64) and the encoder (R67). Everything at the
level of bits here is general knowledge in the spec (GK4, GK5, GK6), which the spec adopts as its rules (log 7). -/

namespace Sys2Proof

/-! ### Byte order (R42) -/

/-- The byte of an instruction word that stands `k` bytes above the word's address: little-endian (R42). -/
def byteOfWord (w : Word) (k : Nat) : Byte := w.extractLsb' (8 * k) 8

/-- The four bytes of an instruction word, lowest address first (R42). -/
def bytesOfWord (w : Word) : List Byte := [byteOfWord w 0, byteOfWord w 1, byteOfWord w 2, byteOfWord w 3]

/-- The instruction word in the four bytes `b0` (lowest address) to `b3` (R42). -/
def wordOfBytes (b0 b1 b2 b3 : Byte) : Word := b3 ++ b2 ++ b1 ++ b0

/-! ### Fields (R62, R63): unsigned, unscaled, contiguous -/

/-- The unsigned number in the `len` bits of the word from bit `lo` up. -/
def fieldAt (lo len : Nat) (w : Word) : Fin (2 ^ len) := (w.extractLsb' lo len).toFin

def rdOf (w : Word) : Reg := fieldAt 0 5 w            -- bits 4..0
def rjOf (w : Word) : Reg := fieldAt 5 5 w            -- bits 9..5
def rkOf (w : Word) : Reg := fieldAt 10 5 w           -- bits 14..10
def sa2Of (w : Word) : Fin 4 := fieldAt 15 2 w        -- bits 16..15
def sa3Of (w : Word) : Fin 8 := fieldAt 15 3 w        -- bits 17..15
def msbwOf (w : Word) : Fin 32 := fieldAt 16 5 w      -- bits 20..16
def lsbwOf (w : Word) : Fin 32 := fieldAt 10 5 w      -- bits 14..10
def msbdOf (w : Word) : Fin 64 := fieldAt 16 6 w      -- bits 21..16
def lsbdOf (w : Word) : Fin 64 := fieldAt 10 6 w      -- bits 15..10

/-! ### The opcode table (R65) -/

/-- A row of R65: the mnemonic, the columns `mask` and `match`, and the term with the fields that R61 gives the row's format. -/
structure Row where
  mnemonic : String
  mask : Word
  pattern : Word
  build : Word → Instr

/-- R65: a word encodes the row's instruction exactly when (w AND mask) = match. -/
def Row.fits (r : Row) (w : Word) : Bool := w &&& r.mask == r.pattern

/-- A row of the format 2R (R61), whose mask is the same in every row. -/
def row2R (mnemonic : String) (pattern : Word) (op : Reg → Reg → Instr) : Row :=
  ⟨mnemonic, 0xFFFFFC00, pattern, fun w => op (rdOf w) (rjOf w)⟩

/-- The rows of EXT and of the counts. -/
def rowsExtCount : List Row :=
  [ row2R "ext.w.b" 0x00005C00 .extWB, row2R "ext.w.h" 0x00005800 .extWH,
    row2R "clo.w" 0x00001000 .cloW, row2R "clz.w" 0x00001400 .clzW,
    row2R "cto.w" 0x00001800 .ctoW, row2R "ctz.w" 0x00001C00 .ctzW,
    row2R "clo.d" 0x00002000 .cloD, row2R "clz.d" 0x00002400 .clzD,
    row2R "cto.d" 0x00002800 .ctoD, row2R "ctz.d" 0x00002C00 .ctzD ]

/-- The rows of BYTEPICK (formats 3R_SA2 and 3R_SA3). -/
def rowsBytepick : List Row :=
  [ ⟨"bytepick.w", 0xFFFE0000, 0x00080000, fun w => .bytepickW (rdOf w) (rjOf w) (rkOf w) (sa2Of w)⟩,
    ⟨"bytepick.d", 0xFFFC0000, 0x000C0000, fun w => .bytepickD (rdOf w) (rjOf w) (rkOf w) (sa3Of w)⟩ ]

/-- The rows of REVB, REVH and BITREV. -/
def rowsReverse : List Row :=
  [ row2R "revb.2h" 0x00003000 .revb2H, row2R "revb.4h" 0x00003400 .revb4H,
    row2R "revb.2w" 0x00003800 .revb2W, row2R "revb.d" 0x00003C00 .revbD,
    row2R "revh.2w" 0x00004000 .revh2W, row2R "revh.d" 0x00004400 .revhD,
    row2R "bitrev.4b" 0x00004800 .bitrev4B, row2R "bitrev.8b" 0x00004C00 .bitrev8B,
    row2R "bitrev.w" 0x00005000 .bitrevW, row2R "bitrev.d" 0x00005400 .bitrevD ]

/-- The rows of BSTRINS and BSTRPICK (formats 2R_MSBW_LSBW and 2R_MSBD_LSBD). -/
def rowsBitString : List Row :=
  [ ⟨"bstrins.w", 0xFFE08000, 0x00600000, fun w => .bstrinsW (rdOf w) (rjOf w) (msbwOf w) (lsbwOf w)⟩,
    ⟨"bstrins.d", 0xFFC00000, 0x00800000, fun w => .bstrinsD (rdOf w) (rjOf w) (msbdOf w) (lsbdOf w)⟩,
    ⟨"bstrpick.w", 0xFFE08000, 0x00608000, fun w => .bstrpickW (rdOf w) (rjOf w) (msbwOf w) (lsbwOf w)⟩,
    ⟨"bstrpick.d", 0xFFC00000, 0x00C00000, fun w => .bstrpickD (rdOf w) (rjOf w) (msbdOf w) (lsbdOf w)⟩ ]

/-- The rows of MASKEQZ and MASKNEZ (format 3R). -/
def rowsMask : List Row :=
  [ ⟨"maskeqz", 0xFFFF8000, 0x00130000, fun w => .maskeqz (rdOf w) (rjOf w) (rkOf w)⟩,
    ⟨"masknez", 0xFFFF8000, 0x00138000, fun w => .masknez (rdOf w) (rjOf w) (rkOf w)⟩ ]

/-- The 28 rows of R65, in the manual's order. -/
def opcodeTable : List Row := rowsExtCount ++ rowsBytepick ++ rowsReverse ++ rowsBitString ++ rowsMask

/-! ### Decoding (R64) -/

/-- Why bytes are no instruction of the scope. -/
inductive DecodeError where
  /-- Fewer than the four bytes of an instruction word (R60). -/
  | truncated
  /-- The word fits no row of R65 (R64, R68 (a)). -/
  | notInScope (w : Word)
  deriving DecidableEq, Repr

/-- R64 on a word: the term of the row that fits. A BSTRINS or BSTRPICK word with msb < lsb decodes to its row's term, which
is not well-formed; executing it faults (R68 (b)). -/
def decodeWord (w : Word) : Except DecodeError Instr :=
  match opcodeTable.find? (fun r => r.fits w) with
  | some r => .ok (r.build w)
  | none => .error (.notInScope w)

/-- The decoder on bytes, lowest address first: the instruction and the bytes after it (R42, R60, R64). -/
def decodeBytes : List Byte → Except DecodeError (Instr × List Byte)
  | b0 :: b1 :: b2 :: b3 :: rest =>
    match decodeWord (wordOfBytes b0 b1 b2 b3) with
    | .ok i => .ok (i, rest)
    | .error e => .error e
  | _ => .error .truncated

/-! ### Encoding (R67) -/

/-- Format 2R: match | rj<<5 | rd. -/
def encode2R (pattern : Word) (rd rj : Reg) : Word :=
  pattern ||| (BitVec.ofNat 32 rj.val <<< 5) ||| BitVec.ofNat 32 rd.val

/-- Formats 3R, 3R_SA2 and 3R_SA3: match | sa<<15 | rk<<10 | rj<<5 | rd, with sa = 0 in the format 3R, which has none. -/
def encode3R (pattern : Word) (rd rj rk : Reg) (sa : Nat) : Word :=
  pattern ||| (BitVec.ofNat 32 sa <<< 15) ||| (BitVec.ofNat 32 rk.val <<< 10) ||| (BitVec.ofNat 32 rj.val <<< 5)
    ||| BitVec.ofNat 32 rd.val

/-- Formats 2R_MSBW_LSBW and 2R_MSBD_LSBD: match | msb<<16 | lsb<<10 | rj<<5 | rd. -/
def encodeMsbLsb (pattern : Word) (rd rj : Reg) (msb lsb : Nat) : Word :=
  pattern ||| (BitVec.ofNat 32 msb <<< 16) ||| (BitVec.ofNat 32 lsb <<< 10) ||| (BitVec.ofNat 32 rj.val <<< 5)
    ||| BitVec.ofNat 32 rd.val

/-- R67: the word of an instruction. -/
def encode : Instr → Word
  | .extWB rd rj => encode2R 0x00005C00 rd rj
  | .extWH rd rj => encode2R 0x00005800 rd rj
  | .cloW rd rj => encode2R 0x00001000 rd rj
  | .clzW rd rj => encode2R 0x00001400 rd rj
  | .ctoW rd rj => encode2R 0x00001800 rd rj
  | .ctzW rd rj => encode2R 0x00001C00 rd rj
  | .cloD rd rj => encode2R 0x00002000 rd rj
  | .clzD rd rj => encode2R 0x00002400 rd rj
  | .ctoD rd rj => encode2R 0x00002800 rd rj
  | .ctzD rd rj => encode2R 0x00002C00 rd rj
  | .bytepickW rd rj rk sa2 => encode3R 0x00080000 rd rj rk sa2.val
  | .bytepickD rd rj rk sa3 => encode3R 0x000C0000 rd rj rk sa3.val
  | .revb2H rd rj => encode2R 0x00003000 rd rj
  | .revb4H rd rj => encode2R 0x00003400 rd rj
  | .revb2W rd rj => encode2R 0x00003800 rd rj
  | .revbD rd rj => encode2R 0x00003C00 rd rj
  | .revh2W rd rj => encode2R 0x00004000 rd rj
  | .revhD rd rj => encode2R 0x00004400 rd rj
  | .bitrev4B rd rj => encode2R 0x00004800 rd rj
  | .bitrev8B rd rj => encode2R 0x00004C00 rd rj
  | .bitrevW rd rj => encode2R 0x00005000 rd rj
  | .bitrevD rd rj => encode2R 0x00005400 rd rj
  | .bstrinsW rd rj msbw lsbw => encodeMsbLsb 0x00600000 rd rj msbw.val lsbw.val
  | .bstrinsD rd rj msbd lsbd => encodeMsbLsb 0x00800000 rd rj msbd.val lsbd.val
  | .bstrpickW rd rj msbw lsbw => encodeMsbLsb 0x00608000 rd rj msbw.val lsbw.val
  | .bstrpickD rd rj msbd lsbd => encodeMsbLsb 0x00C00000 rd rj msbd.val lsbd.val
  | .maskeqz rd rj rk => encode3R 0x00130000 rd rj rk 0
  | .masknez rd rj rk => encode3R 0x00138000 rd rj rk 0

/-! ### The host's view of the decoder -/

/-- The one word of an instruction whose bits are `w`, numbered as spec/opcode_table.json numbers them; bits at `nbits` and
above are 0. -/
def tableWord (nbits w : Nat) : Word := BitVec.ofNat 32 (w % 2 ^ nbits)

/-- The instruction this file's decoder reads from that word, laid out in memory order (R42). -/
def decodeTableWord (nbits w : Nat) : Option Instr :=
  match decodeBytes (bytesOfWord (tableWord nbits w)) with
  | .ok (i, _) => some i
  | .error _ => none

end Sys2Proof
end

