-- ==== Sys2Proof/Config.lean ====
section
/-! DEFINITION. What the spec leaves to the launch (R29: the open parameters progBase and initGR) and the model fixes for
`State.reset`, which has no parameters. A run from other values is `State.launch`, where both are arguments. Nothing else
of this machine is open: the spec leaves no result of an instruction undefined, so there is no free value here. -/

namespace Sys2Proof.Config

/-- PRESUMED (log 2), unsafe: where the pc and the empty text stand after `State.reset`. The spec leaves progBase open (R29)
and names 0x1C000000, the architecture's own reset entry, as orientation only (GK10). -/
def resetBase : DWord := 0x1C000000

/-- DESIGN CHOICE (log 1), unsafe: what general registers 1 to 31 hold after `State.reset`. The spec leaves them open
(R29 (b), initGR). -/
def resetGR : DWord := 0

end Sys2Proof.Config
end

