-- ==== Sys2Proof/Machine/State.lean ====
section
/-! DEFINITION. The state of the machine (R30), with the program text that the launch has placed (R230), the reasons a step
stops (R200), and the state after reset. -/

namespace Sys2Proof.Machine

/-- Memory: address and byte pairs in one canonical form (`Memory.wf`). An address that is not listed is unmapped and
has no byte (R46). -/
abbrev Memory := List Host.Cell

/-- The state: exactly x[1..31] and pc (R30), and beside them the text parameters of the step function (R230), which no
step changes (log 3). There are no flags, control registers, modes or pending events (R25, R31). -/
structure State where
  /-- x[1] to x[31] (R20, R30). x[0] is the constant 0 (R21) and has no storage. -/
  gr : Vector DWord 31
  /-- The address of the instruction being executed (R26). -/
  pc : DWord
  /-- progBase: the address of the first byte of the text (R230). -/
  progBase : DWord
  /-- L: the number of instruction words of the text (R230). -/
  progLen : Nat
  /-- The bytes of the text at progBase to progBase + 4*L - 1, the only populated region (R40). -/
  mem : Memory
  deriving DecidableEq, Repr

/-- `Fault(reason)` of R200: the machine cannot continue, the state is unchanged and there is no later step (R209). Each
records what its rule says it records. -/
inductive Fault where
  /-- R203, raised by the fetch when pc[1:0] is not 0. Safe: nothing follows it. -/
  | fetchMisaligned (pc : DWord)
  /-- R204, raised by the fetch when an aligned pc is neither inside the text nor its end address. Safe: nothing follows it. -/
  | fetchOutOfText (pc : DWord)
  /-- R205, raised by BSTRINS.W, BSTRINS.D, BSTRPICK.W and BSTRPICK.D when msb < lsb. Safe: nothing follows it. -/
  | msbLessThanLsb (pc : DWord) (word : Word)
  deriving DecidableEq, Repr

/-- The steps that are neither a next state nor a fault. -/
inductive Refusal where
  /-- An instruction without a meaning yet, raised by an arm of `exec` only; no arm raises it now. Safe. -/
  | notModelled (mnemonic : String)
  /-- `Refused(NotInScope)` of R202, raised by the step when the word at pc fits no row of R65. Safe: nothing follows it. -/
  | notInScope (pc : DWord) (word : Word)
  /-- `Final` of R200 and R233, raised by the step when pc is the end address of the text: the run is over and `s` is its
  final state (R234). It stands among the refusals because Host.Outcome has three outcomes (log 4). Safe: it refuses no
  instruction, and the model says nothing of what runs afterwards. -/
  | final (s : State)
  deriving DecidableEq, Repr

/-- The outcome of a step or of an instruction (R200). -/
abbrev StepOutcome := Host.Outcome State Fault Refusal

/-- The machine right after reset. The spec states no reset value but x[0] = 0 (R29): the general registers are a DESIGN CHOICE
(log 1), the pc, which is progBase (R29 (c)), is PRESUMED (log 2), and no text has been placed (log 5). -/
def State.reset : State where
  gr := Vector.replicate 31 Config.resetGR
  pc := Config.resetBase
  progBase := Config.resetBase
  progLen := 0
  mem := []

end Sys2Proof.Machine
end

