-- ==== Sys2Proof/Machine/Ops.lean ====
section
/-! DEFINITION. The operations over registers, memory and the pc that every instruction and the step share (R7, R15), the
completion of an instruction (R100 (a)), the raising of a fault (R15, R209), instruction fetch (R43, R208) and the launch
(R230, R231). The spec has no trap entry and no return from one (R209, R210): a fault is terminal. -/

namespace Sys2Proof.Machine

/-! ### General registers (R7, R20 to R22) and the pc (R26, R27) -/

/-- x[r] (R7): register 0 reads as 0 in every state (R21). -/
def State.readReg (s : State) (r : Reg) : DWord :=
  if h : r = 0 then 0 else s.gr.get (r.pred h)

/-- x[r] <- v (R7): a write to register 0 changes no state (R22). -/
def State.writeReg (s : State) (r : Reg) (v : DWord) : State :=
  if h : r = 0 then s else { s with gr := s.gr.set (r.pred h).val v (r.pred h).isLt }

/-- pc <- t (R15). -/
def State.setPc (s : State) (t : DWord) : State := { s with pc := t }

/-! ### How an instruction ends -/

/-- R100 (a): the single write of the result, computed from the state before the instruction (R14), then
pc <- (pc + 4) mod 2^64 (R27). -/
def complete (rd : Reg) (result : DWord) (s : State) : StepOutcome :=
  .next ((s.writeReg rd result).setPc (s.pc + 4))

/-- raise E(info) (R15): the instruction ends with the fault of R200 and writes nothing. Nothing is saved, no handler runs
(R209). -/
def raise (f : Fault) : StepOutcome := .fault f

/-! ### Memory (R40, R42, R46) -/

/-- The byte at an address; none where nothing is populated (R40, R46). -/
def Memory.read : Memory → Nat → Option Byte
  | [], _ => none
  | (a, b) :: m, x => if x = a then some b else Memory.read m x

/-- Memory with the byte `v` at the address `x`, in canonical form again. -/
def Memory.write : Memory → Nat → Byte → Memory
  | [], x, v => [(x, v)]
  | (a, b) :: m, x, v =>
    if x < a then (x, v) :: (a, b) :: m
    else if x = a then (a, v) :: m
    else (a, b) :: Memory.write m x v

/-- The canonical form: addresses strictly rising and below 2^64 (R40). An unlisted address has no byte, so no entry can equal
what an unlisted address reads as. -/
def Memory.wf : Memory → Bool
  | [] => true
  | (a, _) :: m => decide (a < 2 ^ 64) && m.all (fun c => decide (a < c.1)) && Memory.wf m

/-- MemRead(a, 4) (R15) as an instruction word, assembled little-endian (R42, R43). -/
def Memory.readWord (m : Memory) (a : Nat) : Option Word :=
  match Memory.read m a, Memory.read m (a + 1), Memory.read m (a + 2), Memory.read m (a + 3) with
  | some b0, some b1, some b2, some b3 => some (wordOfBytes b0 b1 b2 b3)
  | _, _, _, _ => none

/-- MemWrite(a, 4, w) (R15) of an instruction word, little-endian (R42). No instruction uses it (R41); the launch does. -/
def Memory.writeWord (m : Memory) (a : Nat) (w : Word) : Memory :=
  Memory.write (Memory.write (Memory.write (Memory.write m a (byteOfWord w 0)) (a + 1) (byteOfWord w 1))
    (a + 2) (byteOfWord w 2)) (a + 3) (byteOfWord w 3)

/-! ### Instruction fetch (R43, R208) -/

/-- progBase + 4*L, the address just past the last instruction (R233). -/
def State.endAddr (s : State) : Nat := s.progBase.toNat + 4 * s.progLen

/-- R43: progBase <= pc and pc + 4 <= progBase + 4*L. -/
abbrev State.inText (s : State) : Prop := s.progBase.toNat ≤ s.pc.toNat ∧ s.pc.toNat + 4 ≤ s.endAddr

/-- The checks (1) to (3) of R208 in their order, then the fetch of the word at pc (R43); an outcome other than a word ends
the step. The last case is an address inside the text bounds without its bytes, which is unmapped too (R46); `State.Inv`
rules it out (log 3). -/
def fetch (s : State) : Except StepOutcome Word :=
  if s.pc.toNat = s.endAddr then .error (.refused (.final s))
  else if s.pc.toNat % 4 ≠ 0 then .error (raise (.fetchMisaligned s.pc))
  else if ¬ s.inText then .error (raise (.fetchOutOfText s.pc))
  else
    match Memory.readWord s.mem s.pc.toNat with
    | some w => .ok w
    | none => .error (raise (.fetchOutOfText s.pc))

/-- What a step answers for a fetched word that the decoder refuses (R202, R208 (4)). -/
def refuseWord (w : Word) (s : State) : StepOutcome := .refused (.notInScope s.pc w)

/-! ### Launch (R230, R231) -/

/-- The cells of one instruction word at the address `a` (R42). -/
def wordCells (a : Nat) (w : Word) : Memory :=
  [(a, byteOfWord w 0), (a + 1, byteOfWord w 1), (a + 2, byteOfWord w 2), (a + 3, byteOfWord w 3)]

/-- The cells of a text placed at the address `a`: word i at `a + 4*i` (R230). -/
def textCells (a : Nat) : List Word → Memory
  | [] => []
  | w :: ws => wordCells a w ++ textCells (a + 4) ws

/-- R231: the state a run starts in, for the text `prog` at `base` and the launch values `initGR` of x[1] to x[31]. -/
def State.launch (base : DWord) (prog : List Word) (initGR : Vector DWord 31) : State where
  gr := initGR
  pc := base
  progBase := base
  progLen := prog.length
  mem := textCells base.toNat prog

/-- The state with the word `w` where the next fetch reads: written over the word at pc where the text covers pc, and else as
a text of this one word at pc (log 5). Registers and pc stay as they are. -/
def State.placeWord (s : State) (w : Word) : State :=
  if s.inText then { s with mem := Memory.writeWord s.mem s.pc.toNat w }
  else { s with progBase := s.pc, progLen := 1, mem := wordCells s.pc.toNat w }

end Sys2Proof.Machine
end

