-- ==== Sys2Proof/Machine/Operands.lean ====
section
/-! DEFINITION. The parts of a register value an instruction works on, and the functions of the source's pseudocode: slices,
extension, counts, bit reversal, concatenations and bit strings (R3 to R13). A slice `v[hi:lo]` of the spec is
`v.extractLsb hi lo`, a concatenation `a, b` in braces is `a ++ b` with `a` more significant (R3, R5). -/

namespace Sys2Proof.Machine

/-! ### Slices and extension (R3, R6) -/

/-- v[31:0], the operand of a `.W` form. -/
def lowWord (v : DWord) : Word := v.extractLsb 31 0

/-- B(n) = v[8n+7:8n] (R130). -/
def byteAt (v : DWord) (n : Nat) : Byte := v.extractLsb' (8 * n) 8

/-- H(n) = v[16n+15:16n] (R140). -/
def halfAt (v : DWord) (n : Nat) : Half := v.extractLsb' (16 * n) 16

/-- sext_64(v) (R6). -/
def sext64 {W : Nat} (v : BitVec W) : DWord := v.signExtend 64

/-- zext_64(v) (R6). -/
def zext64 {W : Nat} (v : BitVec W) : DWord := v.setWidth 64

/-- The 64-bit string of a count (R17). -/
def countValue (n : Nat) : DWord := BitVec.ofNat 64 n

/-! ### Counts (R8 to R11) -/

/-- The length of the run of bits equal to `b` that starts at bit n-1 of `v` and goes downward. -/
def runDown {W : Nat} (b : Bool) (v : BitVec W) : Nat → Nat
  | 0 => 0
  | n + 1 => if v.getLsbD n = b then runDown b v n + 1 else 0

/-- The length of the run of bits equal to `b` that starts at bit W-n of `v` and goes upward, over at most n bits. -/
def runUp {W : Nat} (b : Bool) (v : BitVec W) : Nat → Nat
  | 0 => 0
  | n + 1 => if v.getLsbD (W - (n + 1)) = b then runUp b v n + 1 else 0

/-- CLO(v) (R8): consecutive 1 bits from bit W-1 downward. -/
def clo {W : Nat} (v : BitVec W) : Nat := runDown true v W

/-- CLZ(v) (R9): consecutive 0 bits from bit W-1 downward. -/
def clz {W : Nat} (v : BitVec W) : Nat := runDown false v W

/-- CTO(v) (R10): consecutive 1 bits from bit 0 upward. -/
def cto {W : Nat} (v : BitVec W) : Nat := runUp true v W

/-- CTZ(v) (R11): consecutive 0 bits from bit 0 upward. -/
def ctz {W : Nat} (v : BitVec W) : Nat := runUp false v W

/-! ### Reversal (R12) -/

/-- BITREV(v) (R12): bit i of the result is bit W-1-i of `v`. -/
def bitrev {W : Nat} (v : BitVec W) : BitVec W := v.reverse

/-! ### BYTEPICK (R120) -/

/-- The W bits of the concatenation K, J that begin `sa` bytes from its left end: bits 2W-1-8*sa down to W-8*sa. -/
def pickBytes {W : Nat} (k j : BitVec W) (sa : Nat) : BitVec W := (k ++ j).extractLsb' (W - 8 * sa) W

/-! ### Bit strings (R170, R180) -/

/-- The three pieces of BSTRINS, as the source's pseudocode lists them: old[W-1:msb+1], src[msb-lsb:0], old[lsb-1:0]; a piece
whose bounds leave it no bit is the string of width 0 (R4). Meant for lsb <= msb < W. -/
def insertField {W : Nat} (old src : BitVec W) (msb lsb : Nat) : BitVec W :=
  (old.extractLsb' (msb + 1) (W - (msb + 1)) ++ src.extractLsb' 0 (msb - lsb + 1) ++ old.extractLsb' 0 lsb).setWidth W

/-- zext_W(v[msb:lsb]) (R180). Meant for lsb <= msb < W. -/
def pickField {W : Nat} (v : BitVec W) (msb lsb : Nat) : BitVec W := (v.extractLsb msb lsb).setWidth W

end Sys2Proof.Machine

namespace Sys2Proof

/-! ### Which registers an instruction writes and reads (R23) -/

/-- The register the instruction writes: rd, and no other (R23). -/
def Instr.dest : Instr → Reg
  | .extWB rd _ => rd
  | .extWH rd _ => rd
  | .cloW rd _ => rd
  | .clzW rd _ => rd
  | .ctoW rd _ => rd
  | .ctzW rd _ => rd
  | .cloD rd _ => rd
  | .clzD rd _ => rd
  | .ctoD rd _ => rd
  | .ctzD rd _ => rd
  | .bytepickW rd _ _ _ => rd
  | .bytepickD rd _ _ _ => rd
  | .revb2H rd _ => rd
  | .revb4H rd _ => rd
  | .revb2W rd _ => rd
  | .revbD rd _ => rd
  | .revh2W rd _ => rd
  | .revhD rd _ => rd
  | .bitrev4B rd _ => rd
  | .bitrev8B rd _ => rd
  | .bitrevW rd _ => rd
  | .bitrevD rd _ => rd
  | .bstrinsW rd _ _ _ => rd
  | .bstrinsD rd _ _ _ => rd
  | .bstrpickW rd _ _ _ => rd
  | .bstrpickD rd _ _ _ => rd
  | .maskeqz rd _ _ => rd
  | .masknez rd _ _ => rd

/-- The registers the instruction reads (R23): rj; also rk in BYTEPICK, MASKEQZ and MASKNEZ; also rd in BSTRINS. -/
def Instr.sources : Instr → List Reg
  | .extWB _ rj => [rj]
  | .extWH _ rj => [rj]
  | .cloW _ rj => [rj]
  | .clzW _ rj => [rj]
  | .ctoW _ rj => [rj]
  | .ctzW _ rj => [rj]
  | .cloD _ rj => [rj]
  | .clzD _ rj => [rj]
  | .ctoD _ rj => [rj]
  | .ctzD _ rj => [rj]
  | .bytepickW _ rj rk _ => [rj, rk]
  | .bytepickD _ rj rk _ => [rj, rk]
  | .revb2H _ rj => [rj]
  | .revb4H _ rj => [rj]
  | .revb2W _ rj => [rj]
  | .revbD _ rj => [rj]
  | .revh2W _ rj => [rj]
  | .revhD _ rj => [rj]
  | .bitrev4B _ rj => [rj]
  | .bitrev8B _ rj => [rj]
  | .bitrevW _ rj => [rj]
  | .bitrevD _ rj => [rj]
  | .bstrinsW rd rj _ _ => [rd, rj]
  | .bstrinsD rd rj _ _ => [rd, rj]
  | .bstrpickW _ rj _ _ => [rj]
  | .bstrpickD _ rj _ _ => [rj]
  | .maskeqz _ rj rk => [rj, rk]
  | .masknez _ rj rk => [rj, rk]

end Sys2Proof
end

