-- ==== Sys2Proof/Machine/Bitrev.lean ====
section
/-! DEFINITION. BITREV.4B and BITREV.8B (45_bitrev_bytes.md), BITREV.W and BITREV.D (46_bitrev_wd.md), without the sign
extension that the prose of the 64-bit forms copies (90_conflicts.md C9). -/

namespace Sys2Proof.Machine

/-- The bit-reversed bytes n+3, n+2, n+1 and n of a value, each at its place in the word (R150). -/
def bytesReversed (v : DWord) (n : Nat) : Word :=
  bitrev (byteAt v (n + 3)) ++ bitrev (byteAt v (n + 2)) ++ bitrev (byteAt v (n + 1)) ++ bitrev (byteAt v n)

/-- R151: x[rd] <- sext_64 of the four bit-reversed bytes of the low word. -/
def execBitrev4B (rd rj : Reg) (s : State) : StepOutcome :=
  complete rd (sext64 (bytesReversed (s.readReg rj) 0)) s

/-- R152: x[rd] <- the eight bit-reversed bytes. -/
def execBitrev8B (rd rj : Reg) (s : State) : StepOutcome :=
  complete rd (bytesReversed (s.readReg rj) 4 ++ bytesReversed (s.readReg rj) 0) s

/-- R161: x[rd] <- sext_64(BITREV(x[rj][31:0])). -/
def execBitrevW (rd rj : Reg) (s : State) : StepOutcome :=
  complete rd (sext64 (bitrev (lowWord (s.readReg rj)))) s

/-- R162: x[rd] <- BITREV(x[rj][63:0]). -/
def execBitrevD (rd rj : Reg) (s : State) : StepOutcome :=
  complete rd (bitrev (s.readReg rj)) s

end Sys2Proof.Machine
end

