-- ==== Sys2Proof/Machine/Bstrins.lean ====
section
/-! DEFINITION. BSTRINS.W and BSTRINS.D (47_bstrins.md). -/

namespace Sys2Proof.Machine

/-- R171: x[rd] <- sext_64 of the old low word of rd with the field [msbw:lsbw] replaced by the low bits of x[rj]; R173: a fault
that writes nothing when msbw < lsbw. -/
def execBstrinsW (rd rj : Reg) (msbw lsbw : Fin 32) (s : State) : StepOutcome :=
  if msbw < lsbw then raise (.msbLessThanLsb s.pc (encode (.bstrinsW rd rj msbw lsbw)))
  else complete rd (sext64 (insertField (lowWord (s.readReg rd)) (lowWord (s.readReg rj)) msbw.val lsbw.val)) s

/-- R172: x[rd] <- the old x[rd] with the field [msbd:lsbd] replaced by the low bits of x[rj]; R173: a fault that writes nothing
when msbd < lsbd. -/
def execBstrinsD (rd rj : Reg) (msbd lsbd : Fin 64) (s : State) : StepOutcome :=
  if msbd < lsbd then raise (.msbLessThanLsb s.pc (encode (.bstrinsD rd rj msbd lsbd)))
  else complete rd (insertField (s.readReg rd) (s.readReg rj) msbd.val lsbd.val) s

end Sys2Proof.Machine
end

