-- ==== Sys2Proof/Machine/Bstrpick.lean ====
section
/-! DEFINITION. BSTRPICK.W and BSTRPICK.D (48_bstrpick.md). -/

namespace Sys2Proof.Machine

/-- R181: x[rd] <- sext_64(zext_32(x[rj][msbw:lsbw])); R183: a fault that writes nothing when msbw < lsbw. -/
def execBstrpickW (rd rj : Reg) (msbw lsbw : Fin 32) (s : State) : StepOutcome :=
  if msbw < lsbw then raise (.msbLessThanLsb s.pc (encode (.bstrpickW rd rj msbw lsbw)))
  else complete rd (sext64 (pickField (lowWord (s.readReg rj)) msbw.val lsbw.val)) s

/-- R182: x[rd] <- zext_64(x[rj][msbd:lsbd]); R183: a fault that writes nothing when msbd < lsbd. -/
def execBstrpickD (rd rj : Reg) (msbd lsbd : Fin 64) (s : State) : StepOutcome :=
  if msbd < lsbd then raise (.msbLessThanLsb s.pc (encode (.bstrpickD rd rj msbd lsbd)))
  else complete rd (pickField (s.readReg rj) msbd.val lsbd.val) s

end Sys2Proof.Machine
end

