-- ==== Sys2Proof/Machine/Bytepick.lean ====
section
/-! DEFINITION. BYTEPICK.W and BYTEPICK.D (42_bytepick.md), with the slice widths of 90_conflicts.md C5. -/

namespace Sys2Proof.Machine

/-- R121: x[rd] <- sext_64 of the 4 bytes of x[rk][31:0], x[rj][31:0] that begin `sa2` bytes from the left. -/
def execBytepickW (rd rj rk : Reg) (sa2 : Fin 4) (s : State) : StepOutcome :=
  complete rd (sext64 (pickBytes (lowWord (s.readReg rk)) (lowWord (s.readReg rj)) sa2.val)) s

/-- R122: x[rd] <- the 8 bytes of x[rk], x[rj] that begin `sa3` bytes from the left. -/
def execBytepickD (rd rj rk : Reg) (sa3 : Fin 8) (s : State) : StepOutcome :=
  complete rd (pickBytes (s.readReg rk) (s.readReg rj) sa3.val) s

end Sys2Proof.Machine
end

