-- ==== Sys2Proof/Machine/Count.lean ====
section
/-! DEFINITION. CLO, CLZ, CTO and CTZ (41_count_bits.md), with the readings of 90_conflicts.md C2, C3 and C4. -/

namespace Sys2Proof.Machine

/-- R111: x[rd] <- zext_64(CLO(x[rj][31:0])). -/
def execCloW (rd rj : Reg) (s : State) : StepOutcome :=
  complete rd (countValue (clo (lowWord (s.readReg rj)))) s

/-- R112: x[rd] <- zext_64(CLZ(x[rj][31:0])). -/
def execClzW (rd rj : Reg) (s : State) : StepOutcome :=
  complete rd (countValue (clz (lowWord (s.readReg rj)))) s

/-- R113: x[rd] <- zext_64(CTO(x[rj][31:0])). -/
def execCtoW (rd rj : Reg) (s : State) : StepOutcome :=
  complete rd (countValue (cto (lowWord (s.readReg rj)))) s

/-- R114: x[rd] <- zext_64(CTZ(x[rj][31:0])). -/
def execCtzW (rd rj : Reg) (s : State) : StepOutcome :=
  complete rd (countValue (ctz (lowWord (s.readReg rj)))) s

/-- R115: x[rd] <- zext_64(CLO(x[rj][63:0])). -/
def execCloD (rd rj : Reg) (s : State) : StepOutcome :=
  complete rd (countValue (clo (s.readReg rj))) s

/-- R116: x[rd] <- zext_64(CLZ(x[rj][63:0])). -/
def execClzD (rd rj : Reg) (s : State) : StepOutcome :=
  complete rd (countValue (clz (s.readReg rj))) s

/-- R117: x[rd] <- zext_64(CTO(x[rj][63:0])). -/
def execCtoD (rd rj : Reg) (s : State) : StepOutcome :=
  complete rd (countValue (cto (s.readReg rj))) s

/-- R118: x[rd] <- zext_64(CTZ(x[rj][63:0])). -/
def execCtzD (rd rj : Reg) (s : State) : StepOutcome :=
  complete rd (countValue (ctz (s.readReg rj))) s

end Sys2Proof.Machine
end

