-- ==== Sys2Proof/Machine/ExtW.lean ====
section
/-! DEFINITION. EXT.W.B and EXT.W.H (40_ext_w.md). -/

namespace Sys2Proof.Machine

/-- R101: x[rd] <- sext_64(x[rj][7:0]). -/
def execExtWB (rd rj : Reg) (s : State) : StepOutcome :=
  complete rd (sext64 ((s.readReg rj).extractLsb 7 0)) s

/-- R102: x[rd] <- sext_64(x[rj][15:0]). -/
def execExtWH (rd rj : Reg) (s : State) : StepOutcome :=
  complete rd (sext64 ((s.readReg rj).extractLsb 15 0)) s

end Sys2Proof.Machine
end

