-- ==== Sys2Proof/Machine/Mask.lean ====
section
/-! DEFINITION. MASKEQZ and MASKNEZ (49_mask.md). The test is on all 64 bits of x[rk] (R190). -/

namespace Sys2Proof.Machine

/-- R191: x[rd] <- (x[rk] == 0) ? 0 : x[rj]. -/
def execMaskeqz (rd rj rk : Reg) (s : State) : StepOutcome :=
  complete rd (if s.readReg rk = 0 then 0 else s.readReg rj) s

/-- R192: x[rd] <- (x[rk] != 0) ? 0 : x[rj]. -/
def execMasknez (rd rj rk : Reg) (s : State) : StepOutcome :=
  complete rd (if s.readReg rk ≠ 0 then 0 else s.readReg rj) s

end Sys2Proof.Machine
end

