-- ==== Sys2Proof/Machine/Revb.lean ====
section
/-! DEFINITION. REVB.2H, REVB.4H, REVB.2W and REVB.D (43_revb.md), with the corrected byte lists of 90_conflicts.md C8. -/

namespace Sys2Proof.Machine

/-- The half-word of the bytes B(m), B(n) of a value, B(m) more significant. -/
def bytePair (v : DWord) (m n : Nat) : Half := byteAt v m ++ byteAt v n

/-- R131: x[rd] <- sext_64 of B(2), B(3), B(0), B(1). -/
def execRevb2H (rd rj : Reg) (s : State) : StepOutcome :=
  let v := s.readReg rj
  complete rd (sext64 (bytePair v 2 3 ++ bytePair v 0 1)) s

/-- R132: x[rd] <- B(6), B(7), B(4), B(5), B(2), B(3), B(0), B(1). -/
def execRevb4H (rd rj : Reg) (s : State) : StepOutcome :=
  let v := s.readReg rj
  complete rd (bytePair v 6 7 ++ bytePair v 4 5 ++ bytePair v 2 3 ++ bytePair v 0 1) s

/-- R133: x[rd] <- B(4), B(5), B(6), B(7), B(0), B(1), B(2), B(3). -/
def execRevb2W (rd rj : Reg) (s : State) : StepOutcome :=
  let v := s.readReg rj
  complete rd (bytePair v 4 5 ++ bytePair v 6 7 ++ bytePair v 0 1 ++ bytePair v 2 3) s

/-- R134: x[rd] <- B(0), B(1), B(2), B(3), B(4), B(5), B(6), B(7). -/
def execRevbD (rd rj : Reg) (s : State) : StepOutcome :=
  let v := s.readReg rj
  complete rd (bytePair v 0 1 ++ bytePair v 2 3 ++ bytePair v 4 5 ++ bytePair v 6 7) s

end Sys2Proof.Machine
end

