-- ==== Sys2Proof/Machine/Revh.lean ====
section
/-! DEFINITION. REVH.2W and REVH.D (44_revh.md), with the reading of 90_conflicts.md C12. -/

namespace Sys2Proof.Machine

/-- R141: x[rd] <- H(2), H(3), H(0), H(1). -/
def execRevh2W (rd rj : Reg) (s : State) : StepOutcome :=
  let v := s.readReg rj
  complete rd (halfAt v 2 ++ halfAt v 3 ++ halfAt v 0 ++ halfAt v 1) s

/-- R142: x[rd] <- H(0), H(1), H(2), H(3). -/
def execRevhD (rd rj : Reg) (s : State) : StepOutcome :=
  let v := s.readReg rj
  complete rd (halfAt v 0 ++ halfAt v 1 ++ halfAt v 2 ++ halfAt v 3) s

end Sys2Proof.Machine
end

