-- ==== Sys2Proof/Machine/Dispatch.lean ====
section
/-! DEFINITION. The meaning of each instruction: one arm per constructor of Instr. -/

namespace Sys2Proof.Machine

def exec (i : Instr) (s : State) : Host.Outcome State Fault Refusal :=
  match i with
  | .extWB rd rj => Sys2Proof.Machine.execExtWB rd rj s
  | .extWH rd rj => Sys2Proof.Machine.execExtWH rd rj s
  | .cloW rd rj => Sys2Proof.Machine.execCloW rd rj s
  | .clzW rd rj => Sys2Proof.Machine.execClzW rd rj s
  | .ctoW rd rj => Sys2Proof.Machine.execCtoW rd rj s
  | .ctzW rd rj => Sys2Proof.Machine.execCtzW rd rj s
  | .cloD rd rj => Sys2Proof.Machine.execCloD rd rj s
  | .clzD rd rj => Sys2Proof.Machine.execClzD rd rj s
  | .ctoD rd rj => Sys2Proof.Machine.execCtoD rd rj s
  | .ctzD rd rj => Sys2Proof.Machine.execCtzD rd rj s
  | .bytepickW rd rj rk sa2 => Sys2Proof.Machine.execBytepickW rd rj rk sa2 s
  | .bytepickD rd rj rk sa3 => Sys2Proof.Machine.execBytepickD rd rj rk sa3 s
  | .revb2H rd rj => Sys2Proof.Machine.execRevb2H rd rj s
  | .revb4H rd rj => Sys2Proof.Machine.execRevb4H rd rj s
  | .revb2W rd rj => Sys2Proof.Machine.execRevb2W rd rj s
  | .revbD rd rj => Sys2Proof.Machine.execRevbD rd rj s
  | .revh2W rd rj => Sys2Proof.Machine.execRevh2W rd rj s
  | .revhD rd rj => Sys2Proof.Machine.execRevhD rd rj s
  | .bitrev4B rd rj => Sys2Proof.Machine.execBitrev4B rd rj s
  | .bitrev8B rd rj => Sys2Proof.Machine.execBitrev8B rd rj s
  | .bitrevW rd rj => Sys2Proof.Machine.execBitrevW rd rj s
  | .bitrevD rd rj => Sys2Proof.Machine.execBitrevD rd rj s
  | .bstrinsW rd rj msbw lsbw => Sys2Proof.Machine.execBstrinsW rd rj msbw lsbw s
  | .bstrinsD rd rj msbd lsbd => Sys2Proof.Machine.execBstrinsD rd rj msbd lsbd s
  | .bstrpickW rd rj msbw lsbw => Sys2Proof.Machine.execBstrpickW rd rj msbw lsbw s
  | .bstrpickD rd rj msbd lsbd => Sys2Proof.Machine.execBstrpickD rd rj msbd lsbd s
  | .maskeqz rd rj rk => Sys2Proof.Machine.execMaskeqz rd rj rk s
  | .masknez rd rj rk => Sys2Proof.Machine.execMasknez rd rj rk s

end Sys2Proof.Machine
end

