-- ==== Sys2Proof/Machine/Step.lean ====
section
/-! DEFINITION. One step of the machine (R200, R208), and the placing of an instruction for the host. -/

namespace Sys2Proof.Machine

/-- R208: the checks and the fetch of `fetch`, the decoding of the word (R64), then the instruction's own rule. The msb < lsb
fault, check (5), is made by the meanings of the four bit-string forms. -/
def step (s : State) : Host.Outcome State Fault Refusal :=
  match fetch s with
  | .error o => o
  | .ok w =>
    match decodeWord w with
    | .error _ => refuseWord w s
    | .ok i => exec i s

/-- `s` with the instruction whose bits are `w` (numbered as spec/opcode_table.json numbers them) where `step` fetches its next
instruction (log 5). Meant for a pc a run can have: a multiple of 4 with pc + 4 < 2^64. -/
def State.withFetchWord (s : State) (nbits w : Nat) : State := s.placeWord (tableWord nbits w)

end Sys2Proof.Machine
end

