-- ==== Sys2Proof/Machine/Asm.lean ====
section
/-! DEFINITION. The assembler syntax of the 28 instructions (R69, with the corrected spellings of R70): an instruction as a
line of assembly, the line as a term, and the line as text, written and read (log 17). There are no pseudo-instructions (R71).
Whether a term is well-formed is not the assembler's check: a bit-string line with msb < lsb has an encoding (R68 (b)) and
assembles. -/

namespace Sys2Proof

/-- An operand as written: the number of a register, or an unsigned immediate. -/
inductive AsmOperand where
  | reg (n : Nat)
  | imm (n : Nat)
  deriving DecidableEq, Repr

/-- A line of assembly: a mnemonic in lower case and its operands, destination first (R69). -/
structure AsmLine where
  mnemonic : String
  operands : List AsmOperand
  deriving DecidableEq, Repr

/-- Why a line is no instruction. -/
inductive AsmError where
  /-- The mnemonic is none of the 28. -/
  | unknownMnemonic
  /-- The operands are not of the number and kinds that the mnemonic's format line lists. -/
  | operandList
  /-- An operand is outside its range and so has no encoding (R67). -/
  | outOfRange
  /-- The characters of an operand are neither a register name nor a number. -/
  | unreadable
  deriving DecidableEq, Repr

/-- The operand lists of R69: `rd, rj`; `rd, rj, rk`; a third register and a shift amount; two bit positions. -/
inductive AsmForm where
  | rdRj (op : Reg → Reg → Instr)
  | rdRjRk (op : Reg → Reg → Reg → Instr)
  | rdRjRkSa (range : Nat) (op : Reg → Reg → Reg → Fin range → Instr)
  | rdRjMsbLsb (range : Nat) (op : Reg → Reg → Fin range → Fin range → Instr)

/-- The number as an operand below `range`, if it is one (R16). -/
def inRange (range n : Nat) : Option (Fin range) := if h : n < range then some ⟨n, h⟩ else none

/-- An operand list read by a form. -/
def AsmForm.read : AsmForm → List AsmOperand → Except AsmError Instr
  | .rdRj op, [.reg d, .reg j] =>
    match inRange 32 d, inRange 32 j with
    | some rd, some rj => .ok (op rd rj)
    | _, _ => .error .outOfRange
  | .rdRjRk op, [.reg d, .reg j, .reg k] =>
    match inRange 32 d, inRange 32 j, inRange 32 k with
    | some rd, some rj, some rk => .ok (op rd rj rk)
    | _, _, _ => .error .outOfRange
  | .rdRjRkSa range op, [.reg d, .reg j, .reg k, .imm a] =>
    match inRange 32 d, inRange 32 j, inRange 32 k, inRange range a with
    | some rd, some rj, some rk, some sa => .ok (op rd rj rk sa)
    | _, _, _, _ => .error .outOfRange
  | .rdRjMsbLsb range op, [.reg d, .reg j, .imm m, .imm l] =>
    match inRange 32 d, inRange 32 j, inRange range m, inRange range l with
    | some rd, some rj, some msb, some lsb => .ok (op rd rj msb lsb)
    | _, _, _, _ => .error .outOfRange
  | _, _ => .error .operandList

/-- The format lines of EXT and of the counts. -/
def asmFormsExtCount : List (String × AsmForm) :=
  [ ("ext.w.b", .rdRj .extWB), ("ext.w.h", .rdRj .extWH),
    ("clo.w", .rdRj .cloW), ("clo.d", .rdRj .cloD), ("clz.w", .rdRj .clzW), ("clz.d", .rdRj .clzD),
    ("cto.w", .rdRj .ctoW), ("cto.d", .rdRj .ctoD), ("ctz.w", .rdRj .ctzW), ("ctz.d", .rdRj .ctzD) ]

/-- The format lines of BYTEPICK, REVB, REVH and BITREV. -/
def asmFormsBytepickReverse : List (String × AsmForm) :=
  [ ("bytepick.w", .rdRjRkSa 4 .bytepickW), ("bytepick.d", .rdRjRkSa 8 .bytepickD),
    ("revb.2h", .rdRj .revb2H), ("revb.4h", .rdRj .revb4H), ("revb.2w", .rdRj .revb2W), ("revb.d", .rdRj .revbD),
    ("revh.2w", .rdRj .revh2W), ("revh.d", .rdRj .revhD), ("bitrev.4b", .rdRj .bitrev4B), ("bitrev.8b", .rdRj .bitrev8B),
    ("bitrev.w", .rdRj .bitrevW), ("bitrev.d", .rdRj .bitrevD) ]

/-- The format lines of BSTRINS, BSTRPICK, MASKEQZ and MASKNEZ. -/
def asmFormsBitStringMask : List (String × AsmForm) :=
  [ ("bstrins.w", .rdRjMsbLsb 32 .bstrinsW), ("bstrins.d", .rdRjMsbLsb 64 .bstrinsD),
    ("bstrpick.w", .rdRjMsbLsb 32 .bstrpickW), ("bstrpick.d", .rdRjMsbLsb 64 .bstrpickD),
    ("maskeqz", .rdRjRk .maskeqz), ("masknez", .rdRjRk .masknez) ]

/-- The 28 format lines of R69. -/
def asmForms : List (String × AsmForm) := asmFormsExtCount ++ asmFormsBytepickReverse ++ asmFormsBitStringMask

/-- The instruction a line of assembly stands for (R69); an operand outside its range is rejected (R67). -/
def assemble (l : AsmLine) : Except AsmError Instr :=
  match asmForms.lookup l.mnemonic with
  | some f => f.read l.operands
  | none => .error .unknownMnemonic

/-- The operand list `rd, rj`. -/
def line2R (mnemonic : String) (rd rj : Reg) : AsmLine := ⟨mnemonic, [.reg rd.val, .reg rj.val]⟩

/-- The operand list `rd, rj, rk` and what follows it. -/
def line3R (mnemonic : String) (rd rj rk : Reg) (more : List AsmOperand) : AsmLine :=
  ⟨mnemonic, [.reg rd.val, .reg rj.val, .reg rk.val] ++ more⟩

/-- The operand list `rd, rj, msb, lsb`: the most significant bit position comes first (R69). -/
def lineMsbLsb (mnemonic : String) (rd rj : Reg) (msb lsb : Nat) : AsmLine :=
  ⟨mnemonic, [.reg rd.val, .reg rj.val, .imm msb, .imm lsb]⟩

/-- The line of assembly of an instruction (R69). -/
def disassemble : Instr → AsmLine
  | .extWB rd rj => line2R "ext.w.b" rd rj
  | .extWH rd rj => line2R "ext.w.h" rd rj
  | .cloW rd rj => line2R "clo.w" rd rj
  | .clzW rd rj => line2R "clz.w" rd rj
  | .ctoW rd rj => line2R "cto.w" rd rj
  | .ctzW rd rj => line2R "ctz.w" rd rj
  | .cloD rd rj => line2R "clo.d" rd rj
  | .clzD rd rj => line2R "clz.d" rd rj
  | .ctoD rd rj => line2R "cto.d" rd rj
  | .ctzD rd rj => line2R "ctz.d" rd rj
  | .bytepickW rd rj rk sa2 => line3R "bytepick.w" rd rj rk [.imm sa2.val]
  | .bytepickD rd rj rk sa3 => line3R "bytepick.d" rd rj rk [.imm sa3.val]
  | .revb2H rd rj => line2R "revb.2h" rd rj
  | .revb4H rd rj => line2R "revb.4h" rd rj
  | .revb2W rd rj => line2R "revb.2w" rd rj
  | .revbD rd rj => line2R "revb.d" rd rj
  | .revh2W rd rj => line2R "revh.2w" rd rj
  | .revhD rd rj => line2R "revh.d" rd rj
  | .bitrev4B rd rj => line2R "bitrev.4b" rd rj
  | .bitrev8B rd rj => line2R "bitrev.8b" rd rj
  | .bitrevW rd rj => line2R "bitrev.w" rd rj
  | .bitrevD rd rj => line2R "bitrev.d" rd rj
  | .bstrinsW rd rj msbw lsbw => lineMsbLsb "bstrins.w" rd rj msbw.val lsbw.val
  | .bstrinsD rd rj msbd lsbd => lineMsbLsb "bstrins.d" rd rj msbd.val lsbd.val
  | .bstrpickW rd rj msbw lsbw => lineMsbLsb "bstrpick.w" rd rj msbw.val lsbw.val
  | .bstrpickD rd rj msbd lsbd => lineMsbLsb "bstrpick.d" rd rj msbd.val lsbd.val
  | .maskeqz rd rj rk => line3R "maskeqz" rd rj rk []
  | .masknez rd rj rk => line3R "masknez" rd rj rk []

/-- An operand as text: a register as the spec spells it, an immediate as a decimal number (R69, R24, D23). -/
def AsmOperand.text : AsmOperand → String
  | .reg n => "$r" ++ toString n
  | .imm n => toString n

/-- Operands as text, separated by commas (R69). -/
def operandsText : List AsmOperand → String
  | [] => ""
  | [o] => o.text
  | o :: os => o.text ++ ", " ++ operandsText os

/-- A line as text: the mnemonic, white space, the operands separated by commas (R69). -/
def AsmLine.text (l : AsmLine) : String := l.mnemonic ++ " " ++ operandsText l.operands

/-- The toolchain's other names of a register (R24); register 21 has none. No rule of the machine depends on them. -/
def abiNames (r : Reg) : List String :=
  if r.val = 0 then ["$zero"] else if r.val = 1 then ["$ra"] else if r.val = 2 then ["$tp"] else if r.val = 3 then ["$sp"]
  else if r.val ≤ 11 then ["$a" ++ toString (r.val - 4)]
  else if r.val ≤ 20 then ["$t" ++ toString (r.val - 12)]
  else if r.val = 21 then []
  else if r.val = 22 then ["$fp", "$s9"]
  else ["$s" ++ toString (r.val - 23)]

/-! ### Reading a line from its characters (R69, R70) -/

/-- The value of a digit in a base of at most 16. -/
def digitValue (base : Nat) (c : Char) : Option Nat :=
  let d := if '0' ≤ c ∧ c ≤ '9' then c.toNat - '0'.toNat
    else if 'a' ≤ c ∧ c ≤ 'f' then c.toNat - 'a'.toNat + 10
    else if 'A' ≤ c ∧ c ≤ 'F' then c.toNat - 'A'.toNat + 10
    else base
  if d < base then some d else none

/-- The number of a list of digits, none for no digit. -/
def readDigits (base : Nat) : List Char → Option Nat
  | [] => none
  | c :: cs => (c :: cs).foldlM (fun n d => (digitValue base d).map (fun v => base * n + v)) 0

/-- An immediate: an unsigned decimal number, or a hexadecimal one after 0x (R69). -/
def readNumber : List Char → Option Nat
  | '0' :: 'x' :: ds => readDigits 16 ds
  | ds => readDigits 10 ds

/-- A register: $r and a decimal number, or one of the toolchain's names (R24, R70). -/
def readRegister (cs : List Char) : Option Nat :=
  match (match cs with
    | '$' :: 'r' :: ds => readDigits 10 ds
    | _ => none) with
  | some n => some n
  | none => ((List.finRange 32).find? (fun r => (abiNames r).any (fun name => name.toList == cs))).map Fin.val

/-- An operand: a register where it begins with $, and else an immediate. -/
def readOperand (cs : List Char) : Option AsmOperand :=
  match cs with
  | '$' :: _ => (readRegister cs).map .reg
  | _ => (readNumber cs).map .imm

/-- Blank and tab. -/
def isBlank (c : Char) : Bool := c == ' ' || c == '\t'

/-- Characters without the white space at their two ends. -/
def trimBlanks (cs : List Char) : List Char := ((cs.dropWhile isBlank).reverse.dropWhile isBlank).reverse

/-- The pieces between the commas. -/
def splitCommas : List Char → List (List Char)
  | [] => [[]]
  | c :: cs =>
    if c = ',' then [] :: splitCommas cs
    else
      match splitCommas cs with
      | [] => [[c]]
      | w :: ws => (c :: w) :: ws

/-- A line read from its text: the mnemonic, white space, the operands separated by commas (R69). -/
def readLine (text : String) : Except AsmError AsmLine :=
  let cs := trimBlanks text.toList
  let mnemonic := String.ofList (cs.takeWhile (fun c => !isBlank c))
  match trimBlanks (cs.dropWhile (fun c => !isBlank c)) with
  | [] => .ok ⟨mnemonic, []⟩
  | rest =>
    match (splitCommas rest).mapM (fun o => readOperand (trimBlanks o)) with
    | some operands => .ok ⟨mnemonic, operands⟩
    | none => .error .unreadable

/-- The instruction that a text stands for (R69). -/
def assembleText (text : String) : Except AsmError Instr :=
  match readLine text with
  | .ok l => assemble l
  | .error e => .error e

end Sys2Proof
end

