-- ==== Sys2Proof/Safety.lean ====
section
/-! DEFINITION. What the statements about this machine are made of: the states a run can be in, what a run is and when it is
over, what "writes only rd" means, and the spec's own terms for a result, bit by bit, independent of how the meanings
compute it. -/

namespace Sys2Proof.Machine

/-! ### States a run can be in -/

/-- The bounds on a launch (R230): progBase is a multiple of 4 and the end address is a 64-bit address. -/
def Admissible (base : DWord) (prog : List Word) : Prop :=
  base.toNat % 4 = 0 ∧ base.toNat + 4 * prog.length < 2 ^ 64

/-- The invariant of a run: the text region is placed within the bounds of R230 and is exactly what memory lists, byte by byte in
address order (R40), and pc is aligned and stands in the text or at its end (R28, R204). -/
structure State.Inv (s : State) : Prop where
  baseAligned : s.progBase.toNat % 4 = 0
  endFits : s.endAddr < 2 ^ 64
  textListed : s.mem.map Prod.fst = List.range' s.progBase.toNat (4 * s.progLen)
  pcAligned : s.pc.toNat % 4 = 0
  pcLow : s.progBase.toNat ≤ s.pc.toNat
  pcHigh : s.pc.toNat ≤ s.endAddr

/-- Two states with the same text: the parameters of the step (R230), byte by byte. -/
def SameText (s t : State) : Prop :=
  t.progBase = s.progBase ∧ t.progLen = s.progLen ∧ ∀ a, Memory.read t.mem a = Memory.read s.mem a

/-- R100 (a) as a relation: `t` is `s` after the single write of `v` to rd, discarded when rd is 0 (R22), and the advance of the
pc (R27); every other register, every byte of memory and the text's bounds are as before (R23, R25). -/
def WritesOnly (s t : State) (rd : Reg) (v : DWord) : Prop :=
  (∀ r, t.readReg r = if r = rd ∧ r ≠ 0 then v else s.readReg r) ∧ t.pc = s.pc + 4 ∧ SameText s t

/-- The instruction completes at `s` (R100, R200): it answers a next state that differs from `s` by the write to rd of a value
that meets `P` and by the advance of the pc. -/
def CompletesWith (i : Instr) (s : State) (rd : Reg) (P : DWord → Prop) : Prop :=
  ∃ t v, exec i s = .next t ∧ WritesOnly s t rd v ∧ P v

/-! ### Runs -/

/-- The outcome of a run of `k` steps is that it reaches the state `t`, none of the steps having stopped. -/
def Reaches (s : State) (k : Nat) (t : State) : Prop := Host.Core.run Sys2Proof.core k s = .next t

/-- A safe run: from `s`, after some number of next states, the step answers Final (R233, R234) with the state `t`. -/
def RunsToFinal (s t : State) : Prop := ∃ k, Reaches s k t ∧ step t = .refused (.final t)

/-- The state after executing a list of instruction terms in order (R47), none where one of them does not complete. -/
def execAll : List Instr → State → Option State
  | [], s => some s
  | i :: is, s =>
    match exec i s with
    | .next t => execAll is t
    | _ => none

/-! ### The spec's terms for a result -/

/-- `i` is written as the line of assembly (R69), and `w` is its word: the encoder gives it and the decoder reads it (R64, R67). -/
def IsWritten (i : Instr) (mnemonic : String) (operands : List AsmOperand) (w : Word) : Prop :=
  disassemble i = ⟨mnemonic, operands⟩ ∧ encode i = w ∧ decodeWord w = .ok i

/-- A register number as its 5-bit field (R62). -/
def regBits (r : Reg) : BitVec 5 := BitVec.ofFin r

/-- R8, R9: `n` is the number of consecutive bits equal to `b` of v[W-1:0], counted from bit W-1 downward. -/
def LeadingCount (b : Bool) (W : Nat) (v : DWord) (n : Nat) : Prop :=
  n ≤ W ∧ (∀ k, k < n → v.getLsbD (W - 1 - k) = b) ∧ (n < W → v.getLsbD (W - 1 - n) = !b)

/-- R10, R11: `n` is the number of consecutive bits equal to `b` of v[W-1:0], counted from bit 0 upward. -/
def TrailingCount (b : Bool) (W : Nat) (v : DWord) (n : Nat) : Prop :=
  n ≤ W ∧ (∀ k, k < n → v.getLsbD k = b) ∧ (n < W → v.getLsbD n = !b)

/-- The bit of the source that bit `i` of a reversal takes: the string is cut into groups of `g` units of `u` bits, the order of
the units is reversed in each group, and the bits within a unit stay in order (R130, R140, R150, R160). -/
def mirrorBit (u g i : Nat) : Nat := u * (g * (i / u / g) + (g - 1 - i / u % g)) + i % u

/-- The bit of a 32-bit string that bit `i` of its sign extension to 64 bits copies (R6). -/
def wordBit (i : Nat) : Nat := min i 31

end Sys2Proof.Machine
end

