-- ==== Sys2Proof/Certificates/Slice0/Obligations.lean ====
section
/-! DEFINITION. The statements for the provers. Each names the rule of the spec it formalises. The first part has one statement per
instruction: how it is written and encoded (R65, R69), and that from every state, for all operands, it completes, writes its
result to rd alone (nothing when rd is 0) and advances the pc; the result is said bit by bit. The bits of the words are general
knowledge in the spec (GK5, GK6; log 7); `Final` is written `.refused (.final s)` throughout (log 4). -/

open Sys2Proof Sys2Proof.Machine

/-- R101. EXT.W.B sign-extends the low byte of rj. -/
def Obligations.ExtWBSignExtendsLowByte : Prop :=
  ∀ rd rj : Reg,
    IsWritten (.extWB rd rj) "ext.w.b" [.reg rd.val, .reg rj.val] (0b0000000000000000010111#22 ++ regBits rj ++ regBits rd) ∧
    ∀ s : State, CompletesWith (.extWB rd rj) s rd fun v =>
      ∀ i, i < 64 → v.getLsbD i = (s.readReg rj).getLsbD (min i 7)

/-- R102. EXT.W.H sign-extends the low half-word of rj. -/
def Obligations.ExtWHSignExtendsLowHalf : Prop :=
  ∀ rd rj : Reg,
    IsWritten (.extWH rd rj) "ext.w.h" [.reg rd.val, .reg rj.val] (0b0000000000000000010110#22 ++ regBits rj ++ regBits rd) ∧
    ∀ s : State, CompletesWith (.extWH rd rj) s rd fun v =>
      ∀ i, i < 64 → v.getLsbD i = (s.readReg rj).getLsbD (min i 15)

/-- R111. CLO.W counts the leading ones of the low word of rj. -/
def Obligations.CloWCountsLeadingOnes : Prop :=
  ∀ rd rj : Reg,
    IsWritten (.cloW rd rj) "clo.w" [.reg rd.val, .reg rj.val] (0b0000000000000000000100#22 ++ regBits rj ++ regBits rd) ∧
    ∀ s : State, CompletesWith (.cloW rd rj) s rd fun v =>
      ∃ n, LeadingCount true 32 (s.readReg rj) n ∧ v = BitVec.ofNat 64 n

/-- R112. CLZ.W counts the leading zeros of the low word of rj. -/
def Obligations.ClzWCountsLeadingZeros : Prop :=
  ∀ rd rj : Reg,
    IsWritten (.clzW rd rj) "clz.w" [.reg rd.val, .reg rj.val] (0b0000000000000000000101#22 ++ regBits rj ++ regBits rd) ∧
    ∀ s : State, CompletesWith (.clzW rd rj) s rd fun v =>
      ∃ n, LeadingCount false 32 (s.readReg rj) n ∧ v = BitVec.ofNat 64 n

/-- R113. CTO.W counts the trailing ones of the low word of rj. -/
def Obligations.CtoWCountsTrailingOnes : Prop :=
  ∀ rd rj : Reg,
    IsWritten (.ctoW rd rj) "cto.w" [.reg rd.val, .reg rj.val] (0b0000000000000000000110#22 ++ regBits rj ++ regBits rd) ∧
    ∀ s : State, CompletesWith (.ctoW rd rj) s rd fun v =>
      ∃ n, TrailingCount true 32 (s.readReg rj) n ∧ v = BitVec.ofNat 64 n

/-- R114. CTZ.W counts the trailing zeros of the low word of rj. -/
def Obligations.CtzWCountsTrailingZeros : Prop :=
  ∀ rd rj : Reg,
    IsWritten (.ctzW rd rj) "ctz.w" [.reg rd.val, .reg rj.val] (0b0000000000000000000111#22 ++ regBits rj ++ regBits rd) ∧
    ∀ s : State, CompletesWith (.ctzW rd rj) s rd fun v =>
      ∃ n, TrailingCount false 32 (s.readReg rj) n ∧ v = BitVec.ofNat 64 n

/-- R115. CLO.D counts the leading ones of the whole register of rj. -/
def Obligations.CloDCountsLeadingOnes : Prop :=
  ∀ rd rj : Reg,
    IsWritten (.cloD rd rj) "clo.d" [.reg rd.val, .reg rj.val] (0b0000000000000000001000#22 ++ regBits rj ++ regBits rd) ∧
    ∀ s : State, CompletesWith (.cloD rd rj) s rd fun v =>
      ∃ n, LeadingCount true 64 (s.readReg rj) n ∧ v = BitVec.ofNat 64 n

/-- R116. CLZ.D counts the leading zeros of the whole register of rj. -/
def Obligations.ClzDCountsLeadingZeros : Prop :=
  ∀ rd rj : Reg,
    IsWritten (.clzD rd rj) "clz.d" [.reg rd.val, .reg rj.val] (0b0000000000000000001001#22 ++ regBits rj ++ regBits rd) ∧
    ∀ s : State, CompletesWith (.clzD rd rj) s rd fun v =>
      ∃ n, LeadingCount false 64 (s.readReg rj) n ∧ v = BitVec.ofNat 64 n

/-- R117. CTO.D counts the trailing ones of the whole register of rj. -/
def Obligations.CtoDCountsTrailingOnes : Prop :=
  ∀ rd rj : Reg,
    IsWritten (.ctoD rd rj) "cto.d" [.reg rd.val, .reg rj.val] (0b0000000000000000001010#22 ++ regBits rj ++ regBits rd) ∧
    ∀ s : State, CompletesWith (.ctoD rd rj) s rd fun v =>
      ∃ n, TrailingCount true 64 (s.readReg rj) n ∧ v = BitVec.ofNat 64 n

/-- R118. CTZ.D counts the trailing zeros of the whole register of rj. -/
def Obligations.CtzDCountsTrailingZeros : Prop :=
  ∀ rd rj : Reg,
    IsWritten (.ctzD rd rj) "ctz.d" [.reg rd.val, .reg rj.val] (0b0000000000000000001011#22 ++ regBits rj ++ regBits rd) ∧
    ∀ s : State, CompletesWith (.ctzD rd rj) s rd fun v =>
      ∃ n, TrailingCount false 64 (s.readReg rj) n ∧ v = BitVec.ofNat 64 n

/-- R121. BYTEPICK.W picks the 4 bytes of rk, rj that begin sa2 bytes from the left, sign-extended. -/
def Obligations.BytepickWPicksBytesOfPair : Prop :=
  ∀ (rd rj rk : Reg) (sa2 : Fin 4),
    IsWritten (.bytepickW rd rj rk sa2) "bytepick.w" [.reg rd.val, .reg rj.val, .reg rk.val, .imm sa2.val]
      (0b000000000000100#15 ++ (BitVec.ofFin sa2 : BitVec 2) ++ regBits rk ++ regBits rj ++ regBits rd) ∧
    ∀ s : State, CompletesWith (.bytepickW rd rj rk sa2) s rd fun v =>
      ∀ i, i < 64 → v.getLsbD i =
        if wordBit i < 8 * sa2.val then (s.readReg rj).getLsbD (32 - 8 * sa2.val + wordBit i)
        else (s.readReg rk).getLsbD (wordBit i - 8 * sa2.val)

/-- R122. BYTEPICK.D picks the 8 bytes of rk, rj that begin sa3 bytes from the left. -/
def Obligations.BytepickDPicksBytesOfPair : Prop :=
  ∀ (rd rj rk : Reg) (sa3 : Fin 8),
    IsWritten (.bytepickD rd rj rk sa3) "bytepick.d" [.reg rd.val, .reg rj.val, .reg rk.val, .imm sa3.val]
      (0b00000000000011#14 ++ (BitVec.ofFin sa3 : BitVec 3) ++ regBits rk ++ regBits rj ++ regBits rd) ∧
    ∀ s : State, CompletesWith (.bytepickD rd rj rk sa3) s rd fun v =>
      ∀ i, i < 64 → v.getLsbD i =
        if i < 8 * sa3.val then (s.readReg rj).getLsbD (64 - 8 * sa3.val + i)
        else (s.readReg rk).getLsbD (i - 8 * sa3.val)

/-- R131. REVB.2H swaps the two bytes of each half-word of the low word, sign-extended. -/
def Obligations.Revb2HSwapsBytesOfHalves : Prop :=
  ∀ rd rj : Reg,
    IsWritten (.revb2H rd rj) "revb.2h" [.reg rd.val, .reg rj.val] (0b0000000000000000001100#22 ++ regBits rj ++ regBits rd) ∧
    ∀ s : State, CompletesWith (.revb2H rd rj) s rd fun v =>
      ∀ i, i < 64 → v.getLsbD i = (s.readReg rj).getLsbD (mirrorBit 8 2 (wordBit i))

/-- R132. REVB.4H swaps the two bytes of each of the four half-words. -/
def Obligations.Revb4HSwapsBytesOfHalves : Prop :=
  ∀ rd rj : Reg,
    IsWritten (.revb4H rd rj) "revb.4h" [.reg rd.val, .reg rj.val] (0b0000000000000000001101#22 ++ regBits rj ++ regBits rd) ∧
    ∀ s : State, CompletesWith (.revb4H rd rj) s rd fun v =>
      ∀ i, i < 64 → v.getLsbD i = (s.readReg rj).getLsbD (mirrorBit 8 2 i)

/-- R133. REVB.2W reverses the four bytes of each word. -/
def Obligations.Revb2WReversesBytesOfWords : Prop :=
  ∀ rd rj : Reg,
    IsWritten (.revb2W rd rj) "revb.2w" [.reg rd.val, .reg rj.val] (0b0000000000000000001110#22 ++ regBits rj ++ regBits rd) ∧
    ∀ s : State, CompletesWith (.revb2W rd rj) s rd fun v =>
      ∀ i, i < 64 → v.getLsbD i = (s.readReg rj).getLsbD (mirrorBit 8 4 i)

/-- R134. REVB.D reverses the eight bytes of the register. -/
def Obligations.RevbDReversesBytes : Prop :=
  ∀ rd rj : Reg,
    IsWritten (.revbD rd rj) "revb.d" [.reg rd.val, .reg rj.val] (0b0000000000000000001111#22 ++ regBits rj ++ regBits rd) ∧
    ∀ s : State, CompletesWith (.revbD rd rj) s rd fun v =>
      ∀ i, i < 64 → v.getLsbD i = (s.readReg rj).getLsbD (mirrorBit 8 8 i)

/-- R141. REVH.2W exchanges the two half-words of each word. -/
def Obligations.Revh2WSwapsHalvesOfWords : Prop :=
  ∀ rd rj : Reg,
    IsWritten (.revh2W rd rj) "revh.2w" [.reg rd.val, .reg rj.val] (0b0000000000000000010000#22 ++ regBits rj ++ regBits rd) ∧
    ∀ s : State, CompletesWith (.revh2W rd rj) s rd fun v =>
      ∀ i, i < 64 → v.getLsbD i = (s.readReg rj).getLsbD (mirrorBit 16 2 i)

/-- R142. REVH.D reverses the order of the four half-words. -/
def Obligations.RevhDReversesHalves : Prop :=
  ∀ rd rj : Reg,
    IsWritten (.revhD rd rj) "revh.d" [.reg rd.val, .reg rj.val] (0b0000000000000000010001#22 ++ regBits rj ++ regBits rd) ∧
    ∀ s : State, CompletesWith (.revhD rd rj) s rd fun v =>
      ∀ i, i < 64 → v.getLsbD i = (s.readReg rj).getLsbD (mirrorBit 16 4 i)

/-- R151. BITREV.4B reverses the bits of each byte of the low word, sign-extended. -/
def Obligations.Bitrev4BReversesBitsOfLowBytes : Prop :=
  ∀ rd rj : Reg,
    IsWritten (.bitrev4B rd rj) "bitrev.4b" [.reg rd.val, .reg rj.val] (0b0000000000000000010010#22 ++ regBits rj ++ regBits rd) ∧
    ∀ s : State, CompletesWith (.bitrev4B rd rj) s rd fun v =>
      ∀ i, i < 64 → v.getLsbD i = (s.readReg rj).getLsbD (mirrorBit 1 8 (wordBit i))

/-- R152. BITREV.8B reverses the bits of each of the eight bytes. -/
def Obligations.Bitrev8BReversesBitsOfBytes : Prop :=
  ∀ rd rj : Reg,
    IsWritten (.bitrev8B rd rj) "bitrev.8b" [.reg rd.val, .reg rj.val] (0b0000000000000000010011#22 ++ regBits rj ++ regBits rd) ∧
    ∀ s : State, CompletesWith (.bitrev8B rd rj) s rd fun v =>
      ∀ i, i < 64 → v.getLsbD i = (s.readReg rj).getLsbD (mirrorBit 1 8 i)

/-- R161. BITREV.W reverses the 32 bits of the low word, sign-extended. -/
def Obligations.BitrevWReversesLowWord : Prop :=
  ∀ rd rj : Reg,
    IsWritten (.bitrevW rd rj) "bitrev.w" [.reg rd.val, .reg rj.val] (0b0000000000000000010100#22 ++ regBits rj ++ regBits rd) ∧
    ∀ s : State, CompletesWith (.bitrevW rd rj) s rd fun v =>
      ∀ i, i < 64 → v.getLsbD i = (s.readReg rj).getLsbD (mirrorBit 1 32 (wordBit i))

/-- R162. BITREV.D reverses the 64 bits of the register. -/
def Obligations.BitrevDReversesRegister : Prop :=
  ∀ rd rj : Reg,
    IsWritten (.bitrevD rd rj) "bitrev.d" [.reg rd.val, .reg rj.val] (0b0000000000000000010101#22 ++ regBits rj ++ regBits rd) ∧
    ∀ s : State, CompletesWith (.bitrevD rd rj) s rd fun v =>
      ∀ i, i < 64 → v.getLsbD i = (s.readReg rj).getLsbD (mirrorBit 1 64 i)

/-- R171. BSTRINS.W inserts the low bits of rj into the field of the low word of rd, sign-extended. -/
def Obligations.BstrinsWInsertsField : Prop :=
  ∀ (rd rj : Reg) (msbw lsbw : Fin 32),
    IsWritten (.bstrinsW rd rj msbw lsbw) "bstrins.w" [.reg rd.val, .reg rj.val, .imm msbw.val, .imm lsbw.val]
      (0b00000000011#11 ++ regBits msbw ++ 0#1 ++ regBits lsbw ++ regBits rj ++ regBits rd) ∧
    (lsbw ≤ msbw → ∀ s : State, CompletesWith (.bstrinsW rd rj msbw lsbw) s rd fun v =>
      ∀ i, i < 64 → v.getLsbD i =
        if lsbw.val ≤ wordBit i ∧ wordBit i ≤ msbw.val then (s.readReg rj).getLsbD (wordBit i - lsbw.val)
        else (s.readReg rd).getLsbD (wordBit i))

/-- R172. BSTRINS.D inserts the low bits of rj into the field of rd. -/
def Obligations.BstrinsDInsertsField : Prop :=
  ∀ (rd rj : Reg) (msbd lsbd : Fin 64),
    IsWritten (.bstrinsD rd rj msbd lsbd) "bstrins.d" [.reg rd.val, .reg rj.val, .imm msbd.val, .imm lsbd.val]
      (0b0000000010#10 ++ (BitVec.ofFin msbd : BitVec 6) ++ (BitVec.ofFin lsbd : BitVec 6) ++ regBits rj ++ regBits rd) ∧
    (lsbd ≤ msbd → ∀ s : State, CompletesWith (.bstrinsD rd rj msbd lsbd) s rd fun v =>
      ∀ i, i < 64 → v.getLsbD i =
        if lsbd.val ≤ i ∧ i ≤ msbd.val then (s.readReg rj).getLsbD (i - lsbd.val) else (s.readReg rd).getLsbD i)

/-- R181. BSTRPICK.W extracts a field of the low word of rj. -/
def Obligations.BstrpickWExtractsField : Prop :=
  ∀ (rd rj : Reg) (msbw lsbw : Fin 32),
    IsWritten (.bstrpickW rd rj msbw lsbw) "bstrpick.w" [.reg rd.val, .reg rj.val, .imm msbw.val, .imm lsbw.val]
      (0b00000000011#11 ++ regBits msbw ++ 1#1 ++ regBits lsbw ++ regBits rj ++ regBits rd) ∧
    (lsbw ≤ msbw → ∀ s : State, CompletesWith (.bstrpickW rd rj msbw lsbw) s rd fun v =>
      ∀ i, i < 64 → v.getLsbD i =
        if wordBit i ≤ msbw.val - lsbw.val then (s.readReg rj).getLsbD (lsbw.val + wordBit i) else false)

/-- R182. BSTRPICK.D extracts a field of rj, zero-extended. -/
def Obligations.BstrpickDExtractsField : Prop :=
  ∀ (rd rj : Reg) (msbd lsbd : Fin 64),
    IsWritten (.bstrpickD rd rj msbd lsbd) "bstrpick.d" [.reg rd.val, .reg rj.val, .imm msbd.val, .imm lsbd.val]
      (0b0000000011#10 ++ (BitVec.ofFin msbd : BitVec 6) ++ (BitVec.ofFin lsbd : BitVec 6) ++ regBits rj ++ regBits rd) ∧
    (lsbd ≤ msbd → ∀ s : State, CompletesWith (.bstrpickD rd rj msbd lsbd) s rd fun v =>
      ∀ i, i < 64 → v.getLsbD i =
        if i ≤ msbd.val - lsbd.val then (s.readReg rj).getLsbD (lsbd.val + i) else false)

/-- R191. MASKEQZ gives x[rj] or 0 by whether x[rk] is zero. -/
def Obligations.MaskeqzZeroesOnZero : Prop :=
  ∀ rd rj rk : Reg,
    IsWritten (.maskeqz rd rj rk) "maskeqz" [.reg rd.val, .reg rj.val, .reg rk.val]
      (0b00000000000100110#17 ++ regBits rk ++ regBits rj ++ regBits rd) ∧
    ∀ s : State, CompletesWith (.maskeqz rd rj rk) s rd fun v =>
      v = if s.readReg rk = 0 then 0 else s.readReg rj

/-- R192. MASKNEZ gives x[rj] or 0 by whether x[rk] is zero. -/
def Obligations.MasknezZeroesOnNonzero : Prop :=
  ∀ rd rj rk : Reg,
    IsWritten (.masknez rd rj rk) "masknez" [.reg rd.val, .reg rj.val, .reg rk.val]
      (0b00000000000100111#17 ++ regBits rk ++ regBits rj ++ regBits rd) ∧
    ∀ s : State, CompletesWith (.masknez rd rj rk) s rd fun v =>
      v = if s.readReg rk = 0 then s.readReg rj else 0

/-! ### The operand combination msb < lsb, and the formulas of the families -/

/-- R173, R205. BSTRINS with msb < lsb has no result: a fault that writes nothing. That the word it records is the
encoder's word of the term is read from R205 and R67 (log 12, DEDUCED). -/
def Obligations.BstrinsFaultsOnMsbBelowLsb : Prop :=
  ∀ (rd rj : Reg) (s : State),
    (∀ msbw lsbw : Fin 32, msbw < lsbw → (Instr.bstrinsW rd rj msbw lsbw).wellFormed = false ∧
      exec (.bstrinsW rd rj msbw lsbw) s = .fault (.msbLessThanLsb s.pc (encode (.bstrinsW rd rj msbw lsbw)))) ∧
    (∀ msbd lsbd : Fin 64, msbd < lsbd → (Instr.bstrinsD rd rj msbd lsbd).wellFormed = false ∧
      exec (.bstrinsD rd rj msbd lsbd) s = .fault (.msbLessThanLsb s.pc (encode (.bstrinsD rd rj msbd lsbd))))

/-- R183, R205. BSTRPICK with msb < lsb has no result: a fault that writes nothing. That the word it records is the
encoder's word of the term is read from R205 and R67 (log 12, DEDUCED). -/
def Obligations.BstrpickFaultsOnMsbBelowLsb : Prop :=
  ∀ (rd rj : Reg) (s : State),
    (∀ msbw lsbw : Fin 32, msbw < lsbw → (Instr.bstrpickW rd rj msbw lsbw).wellFormed = false ∧
      exec (.bstrpickW rd rj msbw lsbw) s = .fault (.msbLessThanLsb s.pc (encode (.bstrpickW rd rj msbw lsbw)))) ∧
    (∀ msbd lsbd : Fin 64, msbd < lsbd → (Instr.bstrpickD rd rj msbd lsbd).wellFormed = false ∧
      exec (.bstrpickD rd rj msbd lsbd) s = .fault (.msbLessThanLsb s.pc (encode (.bstrpickD rd rj msbd lsbd))))

/-- R120. The formula of the family, with a logical right shift. -/
def Obligations.BytepickIsShiftFormula : Prop :=
  ∀ (rd rj rk : Reg) (s : State),
    (∀ sa2 : Fin 4, exec (.bytepickW rd rj rk sa2) s = .next ((s.writeReg rd
      (BitVec.signExtend 64 (((s.readReg rk).setWidth 32 <<< (8 * sa2.val)) |||
        ((s.readReg rj).setWidth 32 >>> (32 - 8 * sa2.val)) : Word))).setPc (s.pc + 4))) ∧
    (∀ sa3 : Fin 8, exec (.bytepickD rd rj rk sa3) s = .next ((s.writeReg rd
      ((s.readReg rk <<< (8 * sa3.val)) ||| (s.readReg rj >>> (64 - 8 * sa3.val)))).setPc (s.pc + 4)))

/-- R170. The formula of the family. -/
def Obligations.BstrinsIsMaskFormula : Prop :=
  ∀ (rd rj : Reg) (s : State),
    (∀ msbw lsbw : Fin 32, lsbw ≤ msbw →
      let m : Word := BitVec.ofNat 32 (2 ^ (msbw.val - lsbw.val + 1) - 1) <<< lsbw.val
      exec (.bstrinsW rd rj msbw lsbw) s = .next ((s.writeReg rd
        (BitVec.signExtend 64 (((s.readReg rd).setWidth 32 &&& ~~~m) |||
          (((s.readReg rj).setWidth 32 <<< lsbw.val) &&& m) : Word))).setPc (s.pc + 4))) ∧
    (∀ msbd lsbd : Fin 64, lsbd ≤ msbd →
      let m : DWord := BitVec.ofNat 64 (2 ^ (msbd.val - lsbd.val + 1) - 1) <<< lsbd.val
      exec (.bstrinsD rd rj msbd lsbd) s = .next ((s.writeReg rd
        ((s.readReg rd &&& ~~~m) ||| ((s.readReg rj <<< lsbd.val) &&& m))).setPc (s.pc + 4)))

/-- R180. The formula of the family. -/
def Obligations.BstrpickIsShiftMaskFormula : Prop :=
  ∀ (rd rj : Reg) (s : State),
    (∀ msbw lsbw : Fin 32, lsbw ≤ msbw → exec (.bstrpickW rd rj msbw lsbw) s = .next ((s.writeReg rd
      (BitVec.signExtend 64 (((s.readReg rj).setWidth 32 >>> lsbw.val) &&&
        BitVec.ofNat 32 (2 ^ (msbw.val - lsbw.val + 1) - 1) : Word))).setPc (s.pc + 4))) ∧
    (∀ msbd lsbd : Fin 64, lsbd ≤ msbd → exec (.bstrpickD rd rj msbd lsbd) s = .next ((s.writeReg rd
      ((s.readReg rj >>> lsbd.val) &&& BitVec.ofNat 64 (2 ^ (msbd.val - lsbd.val + 1) - 1))).setPc (s.pc + 4)))

/-- R110. The laws that follow from the definitions R8 to R12. -/
def Obligations.CountLaws : Prop :=
  ∀ (W : Nat) (v : BitVec W), 0 < W →
    clz v = clo (~~~v) ∧ ctz v = cto (~~~v) ∧
    (clo v ≠ 0 ↔ clz v = 0) ∧ (cto v ≠ 0 ↔ ctz v = 0) ∧
    ctz v = clz (bitrev v) ∧ cto v = clo (bitrev v)

/-- R130, R140, R150, R162. Twice the same reversal gives the value back. -/
def Obligations.ReversalsAreInvolutions : Prop :=
  ∀ op ∈ [Instr.revb4H, Instr.revb2W, Instr.revbD, Instr.revh2W, Instr.revhD, Instr.bitrev8B, Instr.bitrevD],
    ∀ (rd rj : Reg) (s : State), rd ≠ 0 →
      ∃ t u, exec (op rd rj) s = .next t ∧ exec (op rd rd) t = .next u ∧ u.readReg rd = s.readReg rj

/-- R132, R133, R134, R141, R142, R152, R162. The longer reversals from the shorter ones (95_test_vectors.md section 2.4). -/
def Obligations.ReversalsCompose : Prop :=
  ∀ ops ∈ [(Instr.revb4H, Instr.revhD, Instr.revbD), (Instr.revb4H, Instr.revh2W, Instr.revb2W),
      (Instr.bitrev8B, Instr.revbD, Instr.bitrevD)],
    ∀ (rd rj : Reg) (s : State), rd ≠ 0 →
      ∃ t u w, exec (ops.1 rd rj) s = .next t ∧ exec (ops.2.1 rd rd) t = .next u ∧
        exec (ops.2.2 rd rj) s = .next w ∧ u.readReg rd = w.readReg rd

/-- R121, R122, corner cases: rj = rk makes it a rotation. -/
def Obligations.BytepickOfOneRegisterRotates : Prop :=
  ∀ (rd r : Reg) (s : State), rd ≠ 0 →
    (∀ sa2 : Fin 4, ∃ t, exec (.bytepickW rd r r sa2) s = .next t ∧
      t.readReg rd = (((s.readReg r).setWidth 32).rotateLeft (8 * sa2.val)).signExtend 64) ∧
    (∀ sa3 : Fin 8, ∃ t, exec (.bytepickD rd r r sa3) s = .next t ∧
      t.readReg rd = (s.readReg r).rotateLeft (8 * sa3.val))

/-- R190. The pair followed by a bitwise OR is a branch-free select. -/
def Obligations.MaskPairSelects : Prop :=
  ∀ (r1 r2 a b c : Reg) (s : State), r1 ≠ 0 → r2 ≠ 0 → r1 ≠ r2 → r1 ≠ b → r1 ≠ c →
    ∃ t u, exec (.maskeqz r1 a c) s = .next t ∧ exec (.masknez r2 b c) t = .next u ∧
      (u.readReg r1 = 0 ∨ u.readReg r2 = 0) ∧
      u.readReg r1 ||| u.readReg r2 = if s.readReg c ≠ 0 then s.readReg a else s.readReg b

/-- R71. The identities a compiler may exploit. -/
def Obligations.CompilerIdentities : Prop :=
  ∀ (rd rj rk : Reg) (s : State), rd ≠ 0 →
    (∃ t, exec (.bstrpickD rd rj 31 0) s = .next t ∧ t.readReg rd = ((s.readReg rj).setWidth 32).setWidth 64) ∧
    (∃ t, exec (.bstrpickW rd rj 31 0) s = .next t ∧ t.readReg rd = ((s.readReg rj).setWidth 32).signExtend 64) ∧
    (∃ t, exec (.bytepickD rd rj rk 0) s = .next t ∧ t.readReg rd = s.readReg rk)

/-! ### All instructions: completion, frame, sources -/

/-- R22, R23, R25, R27, R100, R201, R205. No instruction faults by its own semantics but the bit-string forms with msb < lsb. That
the word the fault records is the encoder's word of the term is the model's deduction from R205 and R67 (log 12, DEDUCED). -/
def Obligations.EveryWellFormedInstructionCompletes : Prop :=
  ∀ (i : Instr) (s : State),
    (i.wellFormed = true → ∃ t v, exec i s = .next t ∧ WritesOnly s t i.dest v) ∧
    (i.wellFormed = false → exec i s = .fault (.msbLessThanLsb s.pc (encode i)))

/-- R21, R22. The zero register. -/
def Obligations.ZeroRegisterDiscardsWrites : Prop :=
  (∀ s : State, s.readReg 0 = 0) ∧
  ∀ (i : Instr) (s : State), i.wellFormed = true → i.dest = 0 →
    ∃ t, exec i s = .next t ∧ (∀ r, t.readReg r = s.readReg r) ∧ t.pc = s.pc + 4 ∧ SameText s t

/-- R23, R100 (d). Not on the pc, on other registers, on memory or on any mode. -/
def Obligations.ResultDependsOnSourcesOnly : Prop :=
  ∀ (i : Instr) (s s' t : State), (∀ r ∈ i.sources, s.readReg r = s'.readReg r) → exec i s = .next t →
    ∃ t', exec i s' = .next t' ∧ t.readReg i.dest = t'.readReg i.dest

/-- R23. The .W instructions read only bits 31..0 of their sources. -/
def Obligations.WordFormsIgnoreUpperHalves : Prop :=
  ∀ (rd rj rk : Reg) (sa2 : Fin 4) (msbw lsbw : Fin 32),
    ∀ i ∈ [Instr.extWB rd rj, .extWH rd rj, .cloW rd rj, .clzW rd rj, .ctoW rd rj, .ctzW rd rj, .bytepickW rd rj rk sa2,
      .revb2H rd rj, .bitrev4B rd rj, .bitrevW rd rj, .bstrinsW rd rj msbw lsbw, .bstrpickW rd rj msbw lsbw],
    ∀ s s' t : State, (∀ r ∈ i.sources, (s.readReg r).setWidth 32 = (s'.readReg r).setWidth 32) → exec i s = .next t →
      ∃ t', exec i s' = .next t' ∧ t.readReg i.dest = t'.readReg i.dest

/-! ### Encoding and syntax -/

/-- R64, R67. Encoding is the inverse of decoding. -/
def Obligations.DecodeOfEncode : Prop :=
  ∀ (i : Instr) (rest : List Byte), decodeWord (encode i) = .ok i ∧ decodeBytes (bytesOfWord (encode i) ++ rest) = .ok (i, rest)

/-- R68 (d). Every bit of the word is either opcode or operand. -/
def Obligations.EncodeOfDecode : Prop :=
  ∀ (w : Word) (i : Instr), decodeWord w = .ok i → encode i = w

/-- R66, which the spec derives from R65. The rows as ranges of words. -/
def Obligations.RowsAreDisjointRanges : Prop :=
  (∀ (w : Word) (r q : Row), r ∈ opcodeTable → q ∈ opcodeTable → r.fits w = true → q.fits w = true →
    r.mnemonic = q.mnemonic) ∧
  (∀ (r q : Row) (w x : Word), r ∈ opcodeTable → q ∈ opcodeTable → r.mask = 0xFFFFFC00 → q.mask = 0xFFFFFC00 →
    r.fits w = true → q.fits x = true → w.extractLsb' 10 5 = x.extractLsb' 10 5 → r.mnemonic = q.mnemonic) ∧
  ∀ (w : Word) (i : Instr), decodeWord w = .ok i → w.extractLsb' 24 8 = 0 ∧
    match i with
    | .bytepickW _ _ _ _ => 0x80000 ≤ w.toNat ∧ w.toNat ≤ 0x9FFFF
    | .bytepickD _ _ _ _ => 0xC0000 ≤ w.toNat ∧ w.toNat ≤ 0xFFFFF
    | .maskeqz _ _ _ => 0x130000 ≤ w.toNat ∧ w.toNat ≤ 0x137FFF
    | .masknez _ _ _ => 0x138000 ≤ w.toNat ∧ w.toNat ≤ 0x13FFFF
    | .bstrinsW _ _ _ _ => 0x600000 ≤ w.toNat ∧ w.toNat ≤ 0x7FFFFF ∧ w.getLsbD 15 = false
    | .bstrpickW _ _ _ _ => 0x600000 ≤ w.toNat ∧ w.toNat ≤ 0x7FFFFF ∧ w.getLsbD 15 = true
    | .bstrinsD _ _ _ _ => 0x800000 ≤ w.toNat ∧ w.toNat ≤ 0xBFFFFF
    | .bstrpickD _ _ _ _ => 0xC00000 ≤ w.toNat ∧ w.toNat ≤ 0xFFFFFF
    | _ => w.toNat < 0x6000

/-- R64, R65. Sample words of 95_test_vectors.md section 2.9; a sanity check of the decoder. -/
def Obligations.SampleWordsDecode : Prop :=
  (∀ p ∈ [([0xA4, 0x5C, 0x00, 0x00], Instr.extWB 4 5), ([0x00, 0x10, 0x00, 0x00], .cloW 0 0),
      ([0xFF, 0xFF, 0x09, 0x00], .bytepickW 31 31 31 3), ([0xA4, 0x98, 0x0E, 0x00], .bytepickD 4 5 6 5),
      ([0xA4, 0x38, 0x00, 0x00], .revb2W 4 5), ([0xA4, 0x40, 0x00, 0x00], .revh2W 4 5),
      ([0xA4, 0x4C, 0x00, 0x00], .bitrev8B 4 5), ([0xA4, 0x20, 0x6F, 0x00], .bstrinsW 4 5 15 8),
      ([0xA4, 0x80, 0xEF, 0x00], .bstrpickD 4 5 47 32), ([0xA4, 0x98, 0x13, 0x00], .masknez 4 5 6),
      (([0x41, 0xFC, 0x60, 0x00] : List Byte), .bstrpickW 1 2 0 31)],
    decodeBytes p.1 = .ok (p.2, [])) ∧
  ∀ w ∈ ([0x00000000, 0x00000C00, 0x00006000, 0x000A0000, 0x00128000, 0x00140000, 0x00400000, 0x01000000, 0xFFFFFFFF]
      : List Word),
    decodeWord w = .error (.notInScope w)

/-- R67, R69. Also that an operand outside its range is rejected. -/
def Obligations.AssemblerAcceptsExactlyTheLines : Prop :=
  ∀ (l : AsmLine) (i : Instr), assemble l = .ok i ↔ l = disassemble i

/-- R69, R70. The text of an instruction's line stands for the instruction. -/
def Obligations.AssemblyTextReadsBack : Prop :=
  ∀ i : Instr, assembleText (disassemble i).text = .ok i

/-! ### The step, the launch and runs -/

/-- R43, R64, R208. A step runs the decoded instruction. -/
def Obligations.StepRunsTheDecodedInstruction : Prop :=
  ∀ (s : State) (b0 b1 b2 b3 : Byte) (i : Instr),
    s.pc.toNat % 4 = 0 → s.progBase.toNat ≤ s.pc.toNat → s.pc.toNat + 4 ≤ s.progBase.toNat + 4 * s.progLen →
    Memory.read s.mem s.pc.toNat = some b0 → Memory.read s.mem (s.pc.toNat + 1) = some b1 →
    Memory.read s.mem (s.pc.toNat + 2) = some b2 → Memory.read s.mem (s.pc.toNat + 3) = some b3 →
    decodeBytes [b0, b1, b2, b3] = .ok (i, []) →
    step s = exec i s

/-- R208. The order of checks within a step. -/
def Obligations.StepChecksInOrder : Prop :=
  ∀ s : State,
    (s.pc.toNat = s.progBase.toNat + 4 * s.progLen → step s = .refused (.final s)) ∧
    (s.pc.toNat ≠ s.progBase.toNat + 4 * s.progLen →
      (s.pc.extractLsb 1 0 ≠ 0 → step s = .fault (.fetchMisaligned s.pc)) ∧
      (s.pc.extractLsb 1 0 = 0 →
        (s.pc < s.progBase ∨ s.progBase.toNat + 4 * s.progLen < s.pc.toNat + 4 → step s = .fault (.fetchOutOfText s.pc)) ∧
        (s.progBase ≤ s.pc ∧ s.pc.toNat + 4 ≤ s.progBase.toNat + 4 * s.progLen →
          ∀ w, Memory.readWord s.mem s.pc.toNat = some w →
            (∀ r ∈ opcodeTable, w &&& r.mask ≠ r.pattern) ∧ step s = .refused (.notInScope s.pc w) ∨
            ∃ r ∈ opcodeTable, w &&& r.mask = r.pattern ∧
              ((r.build w).wellFormed = false ∧ step s = .fault (.msbLessThanLsb s.pc w) ∨
               (r.build w).wellFormed = true ∧ ∃ t, step s = .next t))))

/-- R200. The outcomes of a step. -/
def Obligations.StepHasOneOfFourOutcomes : Prop :=
  ∀ s : State,
    (∃ w i t v, Memory.readWord s.mem s.pc.toNat = some w ∧ decodeWord w = .ok i ∧ i.wellFormed = true ∧
      step s = .next t ∧ WritesOnly s t i.dest v) ∨
    (s.pc.toNat = s.progBase.toNat + 4 * s.progLen ∧ step s = .refused (.final s)) ∨
    (∃ f, step s = .fault f ∧
      (f = .fetchMisaligned s.pc ∨ f = .fetchOutOfText s.pc ∨ ∃ w, f = .msbLessThanLsb s.pc w)) ∨
    (∃ w, Memory.readWord s.mem s.pc.toNat = some w ∧ (∀ r ∈ opcodeTable, r.fits w = false) ∧
      step s = .refused (.notInScope s.pc w))

/-- R42, R231 (and R40, R230). The state a run starts in. -/
def Obligations.LaunchPlacesTextAndRegisters : Prop :=
  ∀ (base : DWord) (prog : List Word) (initGR : Vector DWord 31),
    let s := State.launch base prog initGR
    s.pc = base ∧ s.progBase = base ∧ s.progLen = prog.length ∧ s.readReg 0 = 0 ∧
    (∀ n : Fin 31, s.readReg n.succ = initGR.get n) ∧
    (∀ i k, (h : i < prog.length) → k < 4 →
      Memory.read s.mem (base.toNat + 4 * i + k) = some (prog[i].extractLsb' (8 * k) 8)) ∧
    (∀ a, a < base.toNat ∨ base.toNat + 4 * prog.length ≤ a → Memory.read s.mem a = none)

/-- The model's own reset values (log 1, 2, 5) meet the invariant. -/
def Obligations.InvariantAtReset : Prop :=
  State.reset.Inv ∧ Memory.wf State.reset.mem = true

/-- R230, R231. Every admissible launch meets the invariant. -/
def Obligations.InvariantAtLaunch : Prop :=
  ∀ (base : DWord) (prog : List Word) (initGR : Vector DWord 31), Admissible base prog →
    (State.launch base prog initGR).Inv ∧ Memory.wf (State.launch base prog initGR).mem = true

/-- R27, R28, R49, R204. An invariant every step keeps, from every state that meets it. -/
def Obligations.InvariantKeptByStep : Prop :=
  ∀ s t : State, s.Inv → step s = .next t → t.Inv ∧ Memory.wf t.mem = true

/-- R28, R203, R204. The fetch faults are unreachable from launch. -/
def Obligations.FetchFaultsUnreachable : Prop :=
  ∀ (base : DWord) (prog : List Word) (initGR : Vector DWord 31) (k : Nat) (s : State), Admissible base prog →
    Reaches (State.launch base prog initGR) k s →
    ∀ a, step s ≠ .fault (.fetchMisaligned a) ∧ step s ≠ .fault (.fetchOutOfText a)

/-- R49 (and R43). Instruction-fetch coherence. -/
def Obligations.FetchReturnsThePlacedWord : Prop :=
  ∀ (base : DWord) (prog : List Word) (initGR : Vector DWord 31) (k : Nat) (s : State), Admissible base prog →
    Reaches (State.launch base prog initGR) k s →
    SameText (State.launch base prog initGR) s ∧
    (s.pc.toNat ≠ base.toNat + 4 * prog.length →
      ∃ w, prog[(s.pc.toNat - base.toNat) / 4]? = some w ∧ fetch s = .ok w)

/-- R233. The end of a run, for every text of in-scope instructions. -/
def Obligations.TextOfInstructionsRunsToFinal : Prop :=
  ∀ (base : DWord) (is : List Instr) (initGR : Vector DWord 31), (∀ i ∈ is, i.wellFormed = true) →
    Admissible base (is.map encode) →
    (∀ k, (h : k < is.length) → ∃ s, Reaches (State.launch base (is.map encode) initGR) k s ∧ step s = exec is[k] s) ∧
    ∃ t, execAll is (State.launch base (is.map encode) initGR) = some t ∧
      Reaches (State.launch base (is.map encode) initGR) is.length t ∧
      t.pc.toNat = base.toNat + 4 * is.length ∧ step t = .refused (.final t)
end

