-- ==== Sys2Proof/Laws/AsmText.lean ====
section
/-! SUPPORT. What trimming, splitting and reading a line of assembly give (R69). -/

namespace Sys2Proof

/-- There are characters, and neither the first nor the last is white space. -/
def Solid (cs : List Char) : Bool :=
  cs ≠ [] && cs.head?.all (fun c => !isBlank c) && cs.getLast?.all (fun c => !isBlank c)

theorem dropBlanks_of_head {cs : List Char} (h : cs.head?.all (fun c => !isBlank c) = true) : cs.dropWhile isBlank = cs := by
  cases cs with
  | nil => rfl
  | cons c cs => simp at h; simp [h]

theorem trimBlanks_solid {cs : List Char} (h : Solid cs = true) : trimBlanks cs = cs := by
  simp only [Solid, Bool.and_eq_true] at h
  unfold trimBlanks
  rw [dropBlanks_of_head h.1.2, dropBlanks_of_head (by rw [List.head?_reverse]; exact h.2), List.reverse_reverse]

theorem trimBlanks_blank (cs : List Char) : trimBlanks (' ' :: cs) = trimBlanks cs := by
  simp [trimBlanks, isBlank]

/-- A string that begins and ends with a solid one is solid. -/
theorem solid_append {a b : List Char} (ha : Solid a = true) (hb : Solid b = true) (m : List Char) :
    Solid (a ++ (m ++ b)) = true := by
  cases a with
  | nil => simp [Solid] at ha
  | cons c a =>
    have hne : b ≠ [] := by rintro rfl; simp [Solid] at hb
    have hlast : (b.getLast?.all fun c => !isBlank c) = true := by
      simp only [Solid, Bool.and_eq_true] at hb
      exact hb.2
    have e : c :: (a ++ (m ++ b)) = (c :: (a ++ m)) ++ b := by simp
    simp [Solid] at ha ⊢
    refine ⟨ha.1, ?_⟩
    rw [e, List.getLast?_append_of_ne_nil _ hne]
    simpa using hlast

/-- A string without a comma is one piece. -/
theorem splitCommas_one {a : List Char} (h : a.contains ',' = false) : splitCommas a = [a] := by
  induction a with
  | nil => rfl
  | cons c a ih =>
    simp at h
    rw [splitCommas, if_neg (by tauto), ih (by simp [h])]

/-- What stands before the first comma is the first piece. -/
theorem splitCommas_cons {a : List Char} (h : a.contains ',' = false) (b : List Char) :
    splitCommas (a ++ ',' :: b) = a :: splitCommas b := by
  induction a with
  | nil => rfl
  | cons c a ih =>
    simp at h
    rw [List.cons_append, splitCommas, if_neg (by tauto), ih (by simp [h])]

/-- Reading a mnemonic without white space, a blank, and the text `rest` of its operands. -/
theorem readLine_ok {m text : String} {rest : List Char} {operands : List AsmOperand}
    (hm : m.toList.all (fun c => !isBlank c) = true) (hs : Solid m.toList = true) (hr : Solid rest = true)
    (ho : (splitCommas rest).mapM (fun o => readOperand (trimBlanks o)) = some operands)
    (ht : text.toList = m.toList ++ ([' '] ++ rest)) : readLine text = .ok ⟨m, operands⟩ := by
  unfold readLine
  have e1 : (m.toList ++ ([' '] ++ rest)).takeWhile (fun c => !isBlank c) = m.toList := by
    rw [List.takeWhile_append_of_pos (by simpa using hm)]
    simp [isBlank]
  have e2 : (m.toList ++ ([' '] ++ rest)).dropWhile (fun c => !isBlank c) = ' ' :: rest := by
    rw [List.dropWhile_append_of_pos (by simpa using hm)]
    simp [isBlank]
  simp only [ht, trimBlanks_solid (solid_append hs hr _)]
  rw [e1, e2, trimBlanks_blank, trimBlanks_solid hr]
  cases rest with
  | nil => simp [Solid] at hr
  | cons c rest => simp [ho]

end Sys2Proof
end

