-- ==== Sys2Proof/Laws/Decode.lean ====
section
/-! SUPPORT. The laws of the opcode table, the decoder and the encoder (R64 to R67): at most one row fits a word, the decoder
answers that row's term, and the fields of an encoded word are the operands. -/

namespace Sys2Proof

open Machine (regBits)

/-! ### The table (R66) -/

/-- R66: no two rows agree on the bits that both fix. -/
theorem opcodeTable_disjoint :
    opcodeTable.Pairwise (fun r q => r.pattern &&& q.mask ≠ q.pattern &&& r.mask) := by decide

theorem Row.fits_iff (r : Row) (w : Word) : r.fits w = true ↔ w &&& r.mask = r.pattern := by simp [Row.fits]

/-- Two rows that fit one word agree on the bits that both fix. -/
theorem Row.fits_agree {r q : Row} {w : Word} (hr : r.fits w = true) (hq : q.fits w = true) :
    r.pattern &&& q.mask = q.pattern &&& r.mask := by
  rw [Row.fits_iff] at hr hq
  rw [← hr, ← hq, BitVec.and_assoc, BitVec.and_assoc, BitVec.and_comm r.mask]

/-- The first row that fits is the only one, in any table whose rows are pairwise disjoint. -/
theorem find_of_fits {rows : List Row} {r : Row} {w : Word}
    (hd : rows.Pairwise (fun r q => r.pattern &&& q.mask ≠ q.pattern &&& r.mask)) (hr : r ∈ rows) (hf : r.fits w = true) :
    rows.find? (fun q => q.fits w) = some r := by
  induction rows with
  | nil => cases hr
  | cons q rows ih =>
    obtain ⟨hq, hd⟩ := List.pairwise_cons.1 hd
    rcases List.mem_cons.1 hr with rfl | hr
    · simp [hf]
    · have : ¬ q.fits w = true := fun h => hq r hr (Row.fits_agree h hf)
      simp [this, ih hd hr]

/-! ### The decoder (R64) -/

theorem decodeWord_of_fits {r : Row} {w : Word} (hr : r ∈ opcodeTable) (hf : r.fits w = true) :
    decodeWord w = .ok (r.build w) := by
  simp [decodeWord, find_of_fits opcodeTable_disjoint hr hf]

/-- The same for the row at a place of the table, a place that `rfl` checks. -/
theorem decodeWord_of_row {k : Nat} {r : Row} {w : Word} (hr : opcodeTable[k]? = some r) (hf : w &&& r.mask = r.pattern) :
    decodeWord w = .ok (r.build w) :=
  decodeWord_of_fits (List.mem_of_getElem? hr) ((r.fits_iff w).2 hf)

/-- If the decoder answers a term, it is the term of a row that fits. -/
theorem decodeWord_ok {w : Word} {i : Instr} (h : decodeWord w = .ok i) :
    ∃ r ∈ opcodeTable, r.fits w = true ∧ i = r.build w := by
  unfold decodeWord at h
  split at h
  · rename_i r hr
    have hf : r.fits w = true := by simpa using List.find?_some hr
    exact ⟨r, List.mem_of_find?_eq_some hr, hf, by cases h; rfl⟩
  · cases h

/-- If the decoder refuses, no row fits, and it says so of this word. -/
theorem decodeWord_error {w : Word} {e : DecodeError} (h : decodeWord w = .error e) :
    e = .notInScope w ∧ ∀ r ∈ opcodeTable, r.fits w = false := by
  unfold decodeWord at h
  split at h
  · cases h
  · rename_i hn
    exact ⟨by cases h; rfl, fun r hr => by simpa using List.find?_eq_none.1 hn r hr⟩

/-! ### Bytes (R42) -/

theorem decodeBytes_append {b0 b1 b2 b3 : Byte} {rest : List Byte} {i : Instr}
    (h : decodeWord (wordOfBytes b0 b1 b2 b3) = .ok i) :
    decodeBytes (b0 :: b1 :: b2 :: b3 :: rest) = .ok (i, rest) := by
  simp [decodeBytes, h]

/-! ### An encoded word fits its row (R67)

A pattern has zeros where its format has fields, and each operand, shifted to its field, has zeros where the mask has ones: the
second is checked once for every value of an operand. -/

theorem or_and_of_disjoint {p x m : Word} (hp : p &&& m = p) (hx : x &&& m = 0) : (p ||| x) &&& m = p := by
  rw [BitVec.and_or_distrib_right, hp, hx]
  simp

theorem encode2R_fits {p : Word} (hp : p &&& 0xFFFFFC00 = p) (rd rj : Reg) :
    encode2R p rd rj &&& 0xFFFFFC00 = p := by
  have hd : ∀ a : Reg, BitVec.ofNat 32 a.val &&& (0xFFFFFC00 : Word) = 0 := by decide
  have hj : ∀ a : Reg, BitVec.ofNat 32 a.val <<< 5 &&& (0xFFFFFC00 : Word) = 0 := by decide
  have h1 := or_and_of_disjoint hp (hj rj)
  rw [encode2R, BitVec.and_or_distrib_right, h1, hd rd]
  simp

/-- Formats 3R, 3R_SA2 and 3R_SA3, whose masks `m` differ in the place of the shift amount. -/
theorem encode3R_fits {p m : Word} {sa : Nat} (hp : p &&& m = p) (hsa : BitVec.ofNat 32 sa <<< 15 &&& m = 0)
    (hm : m &&& 0x7FFF = 0) (rd rj rk : Reg) : encode3R p rd rj rk sa &&& m = p := by
  have small : ∀ x : Word, x &&& 0x7FFF = x → x &&& m = 0 := by
    intro x hx
    rw [← hx, BitVec.and_assoc, BitVec.and_comm _ m, hm]
    simp
  have hd : ∀ a : Reg, BitVec.ofNat 32 a.val &&& (0x7FFF : Word) = BitVec.ofNat 32 a.val := by decide
  have hj : ∀ a : Reg, BitVec.ofNat 32 a.val <<< 5 &&& (0x7FFF : Word) = BitVec.ofNat 32 a.val <<< 5 := by decide
  have hk : ∀ a : Reg, BitVec.ofNat 32 a.val <<< 10 &&& (0x7FFF : Word) = BitVec.ofNat 32 a.val <<< 10 := by decide
  simp only [encode3R, BitVec.and_or_distrib_right, hp, hsa, small _ (hd rd), small _ (hj rj), small _ (hk rk)]
  simp

/-- Formats 2R_MSBW_LSBW and 2R_MSBD_LSBD. -/
theorem encodeMsbLsb_fits {p m : Word} {msb lsb : Nat} (hp : p &&& m = p) (hmsb : BitVec.ofNat 32 msb <<< 16 &&& m = 0)
    (hlsb : BitVec.ofNat 32 lsb <<< 10 &&& m = 0) (hm : m &&& 0x3FF = 0) (rd rj : Reg) :
    encodeMsbLsb p rd rj msb lsb &&& m = p := by
  have small : ∀ x : Word, x &&& 0x3FF = x → x &&& m = 0 := by
    intro x hx
    rw [← hx, BitVec.and_assoc, BitVec.and_comm _ m, hm]
    simp
  have hd : ∀ a : Reg, BitVec.ofNat 32 a.val &&& (0x3FF : Word) = BitVec.ofNat 32 a.val := by decide
  have hj : ∀ a : Reg, BitVec.ofNat 32 a.val <<< 5 &&& (0x3FF : Word) = BitVec.ofNat 32 a.val <<< 5 := by decide
  simp only [encodeMsbLsb, BitVec.and_or_distrib_right, hp, hmsb, hlsb, small _ (hd rd), small _ (hj rj)]
  simp

/-! ### The fields of an encoded word are its operands (R62, R67) -/

/-- A part with no bit in the field leaves the field to the rest of the word. -/
theorem fieldAt_or_left {lo len : Nat} {x : Word} (h : x.extractLsb' lo len = 0) (y : Word) :
    fieldAt lo len (x ||| y) = fieldAt lo len y := by
  rw [fieldAt, BitVec.extractLsb'_or, h, fieldAt]
  simp

theorem fieldAt_or_right {lo len : Nat} {y : Word} (h : y.extractLsb' lo len = 0) (x : Word) :
    fieldAt lo len (x ||| y) = fieldAt lo len x := by
  rw [fieldAt, BitVec.extractLsb'_or, h, fieldAt]
  simp

/-- The register numbers in their fields, and out of the others. -/
theorem regField : ∀ a : Reg,
    (fieldAt 0 5 (BitVec.ofNat 32 a.val) = a ∧ (BitVec.ofNat 32 a.val : Word).extractLsb' 5 27 = 0) ∧
    (fieldAt 5 5 (BitVec.ofNat 32 a.val <<< 5) = a ∧ (BitVec.ofNat 32 a.val <<< 5 : Word).extractLsb' 0 5 = 0 ∧
      (BitVec.ofNat 32 a.val <<< 5 : Word).extractLsb' 10 22 = 0) ∧
    (fieldAt 10 5 (BitVec.ofNat 32 a.val <<< 10) = a ∧ (BitVec.ofNat 32 a.val <<< 10 : Word).extractLsb' 0 10 = 0 ∧
      (BitVec.ofNat 32 a.val <<< 10 : Word).extractLsb' 15 17 = 0) := by decide

/-- A field within a part of the word that is 0 is 0. -/
theorem extractLsb'_zero_of_wider {x : Word} {lo len lo' len' : Nat} (h : x.extractLsb' lo' len' = 0) (hlo : lo' ≤ lo)
    (hlen : lo + len ≤ lo' + len') : x.extractLsb' lo len = 0 := by
  refine BitVec.eq_of_getLsbD_eq fun i hi => ?_
  have := congrArg (fun v => v.getLsbD (lo - lo' + i)) h
  simp only [BitVec.getLsbD_extractLsb', show lo - lo' + i < len' by omega, decide_true, Bool.true_and,
    show lo' + (lo - lo' + i) = lo + i by omega] at this
  simp [this]

/-- Format 2R: a pattern with zeros in bits 9..0. -/
theorem encode2R_fields {p : Word} (hp : p.extractLsb' 0 10 = 0) (rd rj : Reg) :
    rdOf (encode2R p rd rj) = rd ∧ rjOf (encode2R p rd rj) = rj := by
  obtain ⟨⟨d, d'⟩, -, -⟩ := regField rd
  obtain ⟨-, ⟨j, j', -⟩, -⟩ := regField rj
  refine ⟨?_, ?_⟩
  · rw [rdOf, encode2R, fieldAt_or_left (by
      rw [BitVec.extractLsb'_or, extractLsb'_zero_of_wider hp (by omega) (by omega), j']; rfl), d]
  · rw [rjOf, encode2R, fieldAt_or_right (extractLsb'_zero_of_wider d' (by omega) (by omega)),
      fieldAt_or_left (extractLsb'_zero_of_wider hp (by omega) (by omega)), j]

/-- Formats 3R, 3R_SA2 and 3R_SA3: a pattern with zeros in bits 14..0 and in the field of the shift amount, if there is one. -/
theorem encode3R_fields {p : Word} {sa : Nat} (hp : p.extractLsb' 0 15 = 0)
    (hsa : (BitVec.ofNat 32 sa <<< 15 : Word).extractLsb' 0 15 = 0) (rd rj rk : Reg) :
    rdOf (encode3R p rd rj rk sa) = rd ∧ rjOf (encode3R p rd rj rk sa) = rj ∧ rkOf (encode3R p rd rj rk sa) = rk ∧
      ∀ len, p.extractLsb' 15 len = 0 → len ≤ 17 →
        fieldAt 15 len (encode3R p rd rj rk sa) = fieldAt 15 len (BitVec.ofNat 32 sa <<< 15) := by
  obtain ⟨⟨d, d'⟩, -, -⟩ := regField rd
  obtain ⟨-, ⟨j, j', j''⟩, -⟩ := regField rj
  obtain ⟨-, -, ⟨k, k', k''⟩⟩ := regField rk
  have low : ∀ lo len, lo + len ≤ 15 → (p ||| BitVec.ofNat 32 sa <<< 15 : Word).extractLsb' lo len = 0 := by
    intro lo len h
    rw [BitVec.extractLsb'_or, extractLsb'_zero_of_wider hp (by omega) (by omega),
      extractLsb'_zero_of_wider hsa (by omega) (by omega)]
    simp
  refine ⟨?_, ?_, ?_, fun len hl hle => ?_⟩
  · rw [rdOf, encode3R, fieldAt_or_left (by
      rw [BitVec.extractLsb'_or, BitVec.extractLsb'_or, low 0 5 (by omega),
        extractLsb'_zero_of_wider k' (by omega) (by omega), j']; rfl), d]
  · rw [rjOf, encode3R, fieldAt_or_right (extractLsb'_zero_of_wider d' (by omega) (by omega)), fieldAt_or_left (by
      rw [BitVec.extractLsb'_or, low 5 5 (by omega), extractLsb'_zero_of_wider k' (by omega) (by omega)]; rfl), j]
  · rw [rkOf, encode3R, fieldAt_or_right (extractLsb'_zero_of_wider d' (by omega) (by omega)),
      fieldAt_or_right (extractLsb'_zero_of_wider j'' (by omega) (by omega)), fieldAt_or_left (low 10 5 (by omega)), k]
  · rw [encode3R, fieldAt_or_right (extractLsb'_zero_of_wider d' (by omega) (by omega)),
      fieldAt_or_right (extractLsb'_zero_of_wider j'' (by omega) (by omega)),
      fieldAt_or_right (extractLsb'_zero_of_wider k'' (by omega) (by omega)), fieldAt_or_left hl]

/-- Formats 2R_MSBW_LSBW and 2R_MSBD_LSBD: a pattern with zeros in bits 9..0 and in the fields of the two positions, and two
positions that each stay in their field (`w` bits wide). -/
theorem encodeMsbLsb_fields {p : Word} {msb lsb w : Nat} (hp : p.extractLsb' 0 10 = 0)
    (hm : (BitVec.ofNat 32 msb <<< 16 : Word).extractLsb' 0 16 = 0)
    (hl : (BitVec.ofNat 32 lsb <<< 10 : Word).extractLsb' 0 10 = 0)
    (hl' : (BitVec.ofNat 32 lsb <<< 10 : Word).extractLsb' 16 w = 0) (hw : w ≤ 6) (rd rj : Reg) :
    rdOf (encodeMsbLsb p rd rj msb lsb) = rd ∧ rjOf (encodeMsbLsb p rd rj msb lsb) = rj ∧
      (p.extractLsb' 16 w = 0 →
        fieldAt 16 w (encodeMsbLsb p rd rj msb lsb) = fieldAt 16 w (BitVec.ofNat 32 msb <<< 16)) ∧
      (p.extractLsb' 10 w = 0 →
        fieldAt 10 w (encodeMsbLsb p rd rj msb lsb) = fieldAt 10 w (BitVec.ofNat 32 lsb <<< 10)) := by
  obtain ⟨⟨d, d'⟩, -, -⟩ := regField rd
  obtain ⟨-, ⟨j, j', j''⟩, -⟩ := regField rj
  refine ⟨?_, ?_, fun h => ?_, fun h => ?_⟩
  · rw [rdOf, encodeMsbLsb, fieldAt_or_left (by
      rw [BitVec.extractLsb'_or, BitVec.extractLsb'_or, BitVec.extractLsb'_or,
        extractLsb'_zero_of_wider hp (by omega) (by omega), extractLsb'_zero_of_wider hm (by omega) (by omega),
        extractLsb'_zero_of_wider hl (by omega) (by omega), j']; rfl), d]
  · rw [rjOf, encodeMsbLsb, fieldAt_or_right (extractLsb'_zero_of_wider d' (by omega) (by omega)), fieldAt_or_left (by
      rw [BitVec.extractLsb'_or, BitVec.extractLsb'_or, extractLsb'_zero_of_wider hp (by omega) (by omega),
        extractLsb'_zero_of_wider hm (by omega) (by omega), extractLsb'_zero_of_wider hl (by omega) (by omega)]; rfl), j]
  · rw [encodeMsbLsb, fieldAt_or_right (extractLsb'_zero_of_wider d' (by omega) (by omega)),
      fieldAt_or_right (extractLsb'_zero_of_wider j'' (by omega) (by omega)), fieldAt_or_right hl', fieldAt_or_left h]
  · rw [encodeMsbLsb, fieldAt_or_right (extractLsb'_zero_of_wider d' (by omega) (by omega)),
      fieldAt_or_right (extractLsb'_zero_of_wider j'' (by omega) (by omega)), fieldAt_or_left (by
        rw [BitVec.extractLsb'_or, h, extractLsb'_zero_of_wider hm (by omega) (by omega)]; simp)]

/-! ### The layouts of R61: an encoded word is its opcode part and its operands, side by side -/

/-- An operand shifted to its field, as a number. -/
theorem toNat_shift_field {x n k : Nat} (hx : x < 2 ^ k) (hk : k + n ≤ 32) :
    (BitVec.ofNat 32 x <<< n).toNat = x <<< n := by
  have h1 : x < 2 ^ 32 := lt_of_lt_of_le hx (Nat.pow_le_pow_right (by decide) (by omega))
  have h2 : x <<< n < 2 ^ 32 := by
    rw [Nat.shiftLeft_eq]
    calc x * 2 ^ n < 2 ^ k * 2 ^ n := Nat.mul_lt_mul_of_pos_right hx (Nat.two_pow_pos n)
      _ = 2 ^ (k + n) := by rw [Nat.pow_add]
      _ ≤ 2 ^ 32 := Nat.pow_le_pow_right (by decide) hk
  rw [BitVec.toNat_shiftLeft, BitVec.toNat_ofNat, Nat.mod_eq_of_lt h1, Nat.mod_eq_of_lt h2]

theorem encode2R_layout (op : BitVec 22) (rd rj : Reg) :
    encode2R (op ++ 0#10) rd rj = op ++ regBits rj ++ regBits rd := by
  refine BitVec.eq_of_toNat_eq ?_
  simp only [encode2R, BitVec.toNat_or, toNat_shift_field (k := 5) (n := 5) rj.isLt (by omega), BitVec.toNat_append,
    BitVec.toNat_ofNat, Nat.mod_eq_of_lt (show rd.val < 2 ^ 32 by omega), regBits, BitVec.toNat_ofFin,
    Nat.shiftLeft_or_distrib, ← Nat.shiftLeft_add]
  simp

theorem encode3R_layout (op : BitVec 17) (rd rj rk : Reg) :
    encode3R (op ++ 0#15) rd rj rk 0 = op ++ regBits rk ++ regBits rj ++ regBits rd := by
  refine BitVec.eq_of_toNat_eq ?_
  simp only [encode3R, BitVec.toNat_or, toNat_shift_field (k := 5) (n := 5) rj.isLt (by omega),
    toNat_shift_field (k := 5) (n := 10) rk.isLt (by omega), BitVec.toNat_append, BitVec.toNat_ofNat,
    Nat.mod_eq_of_lt (show rd.val < 2 ^ 32 by omega), regBits, BitVec.toNat_ofFin, Nat.shiftLeft_or_distrib,
    ← Nat.shiftLeft_add]
  simp

theorem encode3R_layout_sa2 (op : BitVec 15) (rd rj rk : Reg) (sa2 : Fin 4) :
    encode3R (op ++ 0#17) rd rj rk sa2.val =
      op ++ (BitVec.ofFin sa2 : BitVec 2) ++ regBits rk ++ regBits rj ++ regBits rd := by
  refine BitVec.eq_of_toNat_eq ?_
  simp only [encode3R, BitVec.toNat_or, toNat_shift_field (k := 5) (n := 5) rj.isLt (by omega),
    toNat_shift_field (k := 5) (n := 10) rk.isLt (by omega), toNat_shift_field (k := 2) (n := 15) sa2.isLt (by omega),
    BitVec.toNat_append, BitVec.toNat_ofNat, Nat.mod_eq_of_lt (show rd.val < 2 ^ 32 by omega), regBits,
    BitVec.toNat_ofFin, Nat.shiftLeft_or_distrib, ← Nat.shiftLeft_add]
  simp

theorem encode3R_layout_sa3 (op : BitVec 14) (rd rj rk : Reg) (sa3 : Fin 8) :
    encode3R (op ++ 0#18) rd rj rk sa3.val =
      op ++ (BitVec.ofFin sa3 : BitVec 3) ++ regBits rk ++ regBits rj ++ regBits rd := by
  refine BitVec.eq_of_toNat_eq ?_
  simp only [encode3R, BitVec.toNat_or, toNat_shift_field (k := 5) (n := 5) rj.isLt (by omega),
    toNat_shift_field (k := 5) (n := 10) rk.isLt (by omega), toNat_shift_field (k := 3) (n := 15) sa3.isLt (by omega),
    BitVec.toNat_append, BitVec.toNat_ofNat, Nat.mod_eq_of_lt (show rd.val < 2 ^ 32 by omega), regBits,
    BitVec.toNat_ofFin, Nat.shiftLeft_or_distrib, ← Nat.shiftLeft_add]
  simp

theorem encodeMsbLsb_layoutW (op : BitVec 11) (b : BitVec 1) (rd rj : Reg) (msbw lsbw : Fin 32) :
    encodeMsbLsb (op ++ 0#5 ++ b ++ 0#15) rd rj msbw.val lsbw.val =
      op ++ regBits msbw ++ b ++ regBits lsbw ++ regBits rj ++ regBits rd := by
  refine BitVec.eq_of_toNat_eq ?_
  simp only [encodeMsbLsb, BitVec.toNat_or, toNat_shift_field (k := 5) (n := 5) rj.isLt (by omega),
    toNat_shift_field (k := 5) (n := 16) msbw.isLt (by omega), toNat_shift_field (k := 5) (n := 10) lsbw.isLt (by omega),
    BitVec.toNat_append, BitVec.toNat_ofNat, Nat.mod_eq_of_lt (show rd.val < 2 ^ 32 by omega), regBits,
    BitVec.toNat_ofFin, Nat.shiftLeft_or_distrib, ← Nat.shiftLeft_add]
  simp only [Nat.zero_mod, Nat.or_zero, Nat.zero_shiftLeft, Nat.reduceAdd]
  rw [Nat.or_assoc (op.toNat <<< 21), Nat.or_comm (b.toNat <<< 15), ← Nat.or_assoc (op.toNat <<< 21)]

theorem encodeMsbLsb_layoutD (op : BitVec 10) (rd rj : Reg) (msbd lsbd : Fin 64) :
    encodeMsbLsb (op ++ 0#22) rd rj msbd.val lsbd.val =
      op ++ (BitVec.ofFin msbd : BitVec 6) ++ (BitVec.ofFin lsbd : BitVec 6) ++ regBits rj ++ regBits rd := by
  refine BitVec.eq_of_toNat_eq ?_
  simp only [encodeMsbLsb, BitVec.toNat_or, toNat_shift_field (k := 5) (n := 5) rj.isLt (by omega),
    toNat_shift_field (k := 6) (n := 16) msbd.isLt (by omega), toNat_shift_field (k := 6) (n := 10) lsbd.isLt (by omega),
    BitVec.toNat_append, BitVec.toNat_ofNat, Nat.mod_eq_of_lt (show rd.val < 2 ^ 32 by omega), regBits,
    BitVec.toNat_ofFin, Nat.shiftLeft_or_distrib, ← Nat.shiftLeft_add]
  simp

end Sys2Proof
end

