-- ==== Sys2Proof/Laws/Memory.lean ====
section
/-! SUPPORT. The laws of memory: a read after a write, the canonical form and what keeps it, and what the cells of a placed text
read as (R40, R42, R230). -/

namespace Sys2Proof.Machine

/-! ### Read after write -/

theorem Memory.read_write (m : Memory) (x y : Nat) (v : Byte) :
    Memory.read (Memory.write m x v) y = if y = x then some v else Memory.read m y := by
  induction m with
  | nil => simp [Memory.write, Memory.read]
  | cons c m ih =>
    obtain ⟨a, b⟩ := c
    simp only [Memory.write]
    split
    · rename_i hlt
      by_cases h : y = x <;> simp [Memory.read, h]
    · split
      · rename_i heq
        subst heq
        by_cases h : y = x <;> simp [Memory.read, h]
      · rename_i hge hne
        by_cases h : y = a
        · subst h
          have : ¬ y = x := fun h' => hne h'.symm
          simp [Memory.read, this]
        · simp [Memory.read, h, ih]

theorem Memory.read_write_same (m : Memory) (x : Nat) (v : Byte) : Memory.read (Memory.write m x v) x = some v := by
  simp [Memory.read_write]

theorem Memory.read_write_other (m : Memory) {x y : Nat} (v : Byte) (h : y ≠ x) :
    Memory.read (Memory.write m x v) y = Memory.read m y := by
  simp [Memory.read_write, h]

/-- A word written is the word read back (R42). -/
theorem wordOfBytes_byteOfWord (w : Word) :
    wordOfBytes (byteOfWord w 0) (byteOfWord w 1) (byteOfWord w 2) (byteOfWord w 3) = w := by
  refine BitVec.eq_of_getLsbD_eq fun i hi => ?_
  have h0 : ¬ i < 8 → ¬ i - 8 < 8 → ¬ i - 8 - 8 < 8 → 24 + (i - 8 - 8 - 8) = i := by omega
  have h1 : ¬ i < 8 → ¬ i - 8 < 8 → 16 + (i - 8 - 8) = i := by omega
  have h2 : ¬ i < 8 → 8 + (i - 8) = i := by omega
  simp only [wordOfBytes, byteOfWord, BitVec.getLsbD_append, BitVec.getLsbD_extractLsb']
  split <;> [skip; (split <;> [skip; split])] <;> simp_all
  omega

theorem Memory.readWord_writeWord (m : Memory) (a : Nat) (w : Word) :
    Memory.readWord (Memory.writeWord m a w) a = some w := by
  simp [Memory.readWord, Memory.writeWord, Memory.read_write, wordOfBytes_byteOfWord]

theorem Memory.read_writeWord_other (m : Memory) (a x : Nat) (w : Word) (h : x < a ∨ a + 4 ≤ x) :
    Memory.read (Memory.writeWord m a w) x = Memory.read m x := by
  have h0 : x ≠ a := by omega
  have h1 : x ≠ a + 1 := by omega
  have h2 : x ≠ a + 2 := by omega
  have h3 : x ≠ a + 3 := by omega
  simp [Memory.writeWord, Memory.read_write, h0, h1, h2, h3]

/-! ### The canonical form -/

theorem Memory.wf_cons (a : Nat) (b : Byte) (m : Memory) :
    Memory.wf ((a, b) :: m) = true ↔ a < 2 ^ 64 ∧ (∀ c ∈ m, a < c.1) ∧ Memory.wf m = true := by
  simp [Memory.wf, and_assoc]

/-- The addresses a write lists are those listed before and the address written. -/
theorem Memory.mem_write {m : Memory} {x : Nat} {v : Byte} {c : Host.Cell} (h : c ∈ Memory.write m x v) :
    c.1 = x ∨ c ∈ m := by
  induction m with
  | nil => simp [Memory.write] at h; simp [h]
  | cons d m ih =>
    obtain ⟨a, b⟩ := d
    simp only [Memory.write] at h
    split at h
    · rcases List.mem_cons.1 h with h | h
      · simp [h]
      · exact .inr h
    · split at h
      · rename_i heq
        rcases List.mem_cons.1 h with h | h
        · simp [h, heq]
        · exact .inr (List.mem_cons_of_mem _ h)
      · rcases List.mem_cons.1 h with h | h
        · simp [h]
        · exact (ih h).imp id (List.mem_cons_of_mem _)

/-- A write keeps the canonical form. -/
theorem Memory.wf_write {m : Memory} {x : Nat} {v : Byte} (hx : x < 2 ^ 64) (h : Memory.wf m = true) :
    Memory.wf (Memory.write m x v) = true := by
  induction m with
  | nil => simp [Memory.write, Memory.wf]; exact hx
  | cons d m ih =>
    obtain ⟨a, b⟩ := d
    obtain ⟨ha, hall, hm⟩ := (Memory.wf_cons a b m).1 h
    simp only [Memory.write]
    split
    · rename_i hlt
      refine (Memory.wf_cons _ _ _).2 ⟨hx, ?_, h⟩
      intro c hc
      rcases List.mem_cons.1 hc with hc | hc
      · simp [hc, hlt]
      · exact lt_trans hlt (hall c hc)
    · split
      · exact (Memory.wf_cons _ _ _).2 ⟨ha, hall, hm⟩
      · refine (Memory.wf_cons _ _ _).2 ⟨ha, ?_, ih hm⟩
        intro c hc
        rcases Memory.mem_write hc with hc | hc
        · omega
        · exact hall c hc

theorem Memory.wf_writeWord {m : Memory} {a : Nat} (w : Word) (ha : a + 3 < 2 ^ 64) (h : Memory.wf m = true) :
    Memory.wf (Memory.writeWord m a w) = true :=
  Memory.wf_write (by omega) (Memory.wf_write (by omega) (Memory.wf_write (by omega) (Memory.wf_write (by omega) h)))

/-- A memory that lists a run of addresses below 2^64, each once and in order, is in canonical form. -/
theorem Memory.wf_of_addresses {m : Memory} {a n : Nat} (hn : a + n ≤ 2 ^ 64) (h : m.map Prod.fst = List.range' a n) :
    Memory.wf m = true := by
  induction n generalizing a m with
  | zero => simp at h; subst h; rfl
  | succ n ih =>
    cases m with
    | nil => simp [List.range'_succ] at h
    | cons c m =>
      obtain ⟨x, b⟩ := c
      simp only [List.map_cons, List.range'_succ, List.cons.injEq] at h
      obtain ⟨rfl, h⟩ := h
      refine (Memory.wf_cons _ _ _).2 ⟨by omega, ?_, ih (by omega) h⟩
      intro c hc
      have : c.1 ∈ List.range' (x + 1) n := h ▸ List.mem_map_of_mem hc
      simp only [List.mem_range'_1] at this
      omega

/-- In such a memory exactly those addresses have a byte. -/
theorem Memory.read_isSome_of_addresses {m : Memory} {a n x : Nat} (h : m.map Prod.fst = List.range' a n) :
    (Memory.read m x).isSome = true ↔ a ≤ x ∧ x < a + n := by
  induction n generalizing a m with
  | zero => simp at h; subst h; simp [Memory.read]
  | succ n ih =>
    cases m with
    | nil => simp [List.range'_succ] at h
    | cons c m =>
      obtain ⟨y, b⟩ := c
      simp only [List.map_cons, List.range'_succ, List.cons.injEq] at h
      obtain ⟨rfl, h⟩ := h
      simp only [Memory.read]
      split
      · simp; omega
      · rw [ih h]; omega

/-! ### The cells of a placed text (R230) -/

theorem wordCells_addresses (a : Nat) (w : Word) : (wordCells a w).map Prod.fst = List.range' a 4 := rfl

theorem textCells_addresses (a : Nat) (prog : List Word) :
    (textCells a prog).map Prod.fst = List.range' a (4 * prog.length) := by
  induction prog generalizing a with
  | nil => rfl
  | cons w ws ih =>
    rw [textCells, List.map_append, ih, wordCells_addresses, List.length_cons, Nat.mul_succ, Nat.add_comm (4 * ws.length),
      ← List.range'_append_1]

/-- A placed text is in canonical form when its end address is a 64-bit address (R230). -/
theorem wf_textCells {a : Nat} {prog : List Word} (h : a + 4 * prog.length ≤ 2 ^ 64) :
    Memory.wf (textCells a prog) = true :=
  Memory.wf_of_addresses h (textCells_addresses a prog)

theorem Memory.read_wordCells_append (a x : Nat) (w : Word) (m : Memory) :
    Memory.read (wordCells a w ++ m) x =
      if x = a then some (byteOfWord w 0) else if x = a + 1 then some (byteOfWord w 1)
      else if x = a + 2 then some (byteOfWord w 2) else if x = a + 3 then some (byteOfWord w 3) else Memory.read m x := by
  simp [wordCells, Memory.read]

/-- The word read from a placed text, with anything listed after it, is the word the text holds there (R43). -/
theorem Memory.readWord_textCells (a : Nat) (prog : List Word) (i : Nat) :
    Memory.readWord (textCells a prog) (a + 4 * i) = prog[i]? := by
  induction prog generalizing a i with
  | nil => simp [textCells, Memory.readWord, Memory.read]
  | cons w ws ih =>
    cases i with
    | zero => simp [textCells, Memory.readWord, Memory.read_wordCells_append, wordOfBytes_byteOfWord]
    | succ i =>
      have e : a + 4 * (i + 1) = a + 4 + 4 * i := by omega
      have step : ∀ x, a + 4 ≤ x → Memory.read (wordCells a w ++ textCells (a + 4) ws) x =
          Memory.read (textCells (a + 4) ws) x := by
        intro x hx
        have h0 : x ≠ a := by omega
        have h1 : x ≠ a + 1 := by omega
        have h2 : x ≠ a + 2 := by omega
        have h3 : x ≠ a + 3 := by omega
        simp [Memory.read_wordCells_append, h0, h1, h2, h3]
      rw [e, List.getElem?_cons_succ, ← ih]
      simp only [textCells, Memory.readWord]
      rw [step _ (by omega), step _ (by omega), step _ (by omega), step _ (by omega)]

end Sys2Proof.Machine
end

