-- ==== Sys2Proof/Laws/Operands.lean ====
section
/-! SUPPORT. What each function of Machine/Operands.lean computes, bit by bit, or as the run of bits it counts. -/

namespace Sys2Proof.Machine

/-! ### Slices and extension -/

theorem getLsbD_lowWord (v : DWord) (i : Nat) : (lowWord v).getLsbD i = (decide (i < 32) && v.getLsbD i) := by
  rw [lowWord, BitVec.getLsbD_extractLsb]
  by_cases h : i < 32 <;> simp [h]

theorem getLsbD_byteAt (v : DWord) (n i : Nat) : (byteAt v n).getLsbD i = (decide (i < 8) && v.getLsbD (8 * n + i)) := by
  rw [byteAt, BitVec.getLsbD_extractLsb']

theorem getLsbD_halfAt (v : DWord) (n i : Nat) : (halfAt v n).getLsbD i = (decide (i < 16) && v.getLsbD (16 * n + i)) := by
  rw [halfAt, BitVec.getLsbD_extractLsb']

/-- Bit i of a sign extension is bit i of the value, or its top bit above it (R6). -/
theorem getLsbD_sext64 {W : Nat} (v : BitVec W) {i : Nat} (hW : 0 < W) (hi : i < 64) :
    (sext64 v).getLsbD i = v.getLsbD (min i (W - 1)) := by
  rw [sext64, BitVec.getLsbD_signExtend]
  by_cases h : i < W
  · simp [h, hi, show min i (W - 1) = i by omega]
  · simp [h, hi, show min i (W - 1) = W - 1 by omega, BitVec.msb_eq_getLsbD_last]

theorem getLsbD_zext64 {W : Nat} (v : BitVec W) {i : Nat} (hi : i < 64) : (zext64 v).getLsbD i = v.getLsbD i := by
  simp [zext64, hi]

/-! ### Reversal -/

theorem getLsbD_bitrev {W : Nat} (v : BitVec W) {i : Nat} (hi : i < W) :
    (bitrev v).getLsbD i = v.getLsbD (W - 1 - i) := by
  rw [bitrev, BitVec.getLsbD_reverse, BitVec.getMsbD_eq_getLsbD]
  simp [hi]

theorem bitrev_bitrev {W : Nat} (v : BitVec W) : bitrev (bitrev v) = v := by
  refine BitVec.eq_of_getLsbD_eq fun i hi => ?_
  rw [getLsbD_bitrev _ hi, getLsbD_bitrev _ (by omega), show W - 1 - (W - 1 - i) = i by omega]

/-! ### Counts -/

/-- The run counted downward from bit n-1 is the longest: its bits equal `b` and the next, if there is one, does not. -/
theorem runDown_spec {W : Nat} (b : Bool) (v : BitVec W) (n : Nat) :
    runDown b v n ≤ n ∧ (∀ k, k < runDown b v n → v.getLsbD (n - 1 - k) = b) ∧
      (runDown b v n < n → v.getLsbD (n - 1 - runDown b v n) = !b) := by
  induction n with
  | zero => simp [runDown]
  | succ n ih =>
    obtain ⟨hle, hrun, hend⟩ := ih
    by_cases h : v.getLsbD n = b
    · have e : runDown b v (n + 1) = runDown b v n + 1 := by simp [runDown, h]
      rw [e]
      refine ⟨by omega, fun k hk => ?_, fun hk => ?_⟩
      · cases k with
        | zero => simpa using h
        | succ k => rw [show n + 1 - 1 - (k + 1) = n - 1 - k by omega]; exact hrun k (by omega)
      · rw [show n + 1 - 1 - (runDown b v n + 1) = n - 1 - runDown b v n by omega]; exact hend (by omega)
    · have e : runDown b v (n + 1) = 0 := by simp [runDown, h]
      rw [e]
      refine ⟨by omega, fun k hk => absurd hk (by omega), fun _ => ?_⟩
      simpa using Bool.eq_not_of_ne h

/-- The run counted upward from bit W-n is the longest within the n bits from there to the top. -/
theorem runUp_spec {W : Nat} (b : Bool) (v : BitVec W) {n : Nat} (hn : n ≤ W) :
    runUp b v n ≤ n ∧ (∀ k, k < runUp b v n → v.getLsbD (W - n + k) = b) ∧
      (runUp b v n < n → v.getLsbD (W - n + runUp b v n) = !b) := by
  induction n with
  | zero => simp [runUp]
  | succ n ih =>
    obtain ⟨hle, hrun, hend⟩ := ih (by omega)
    by_cases h : v.getLsbD (W - (n + 1)) = b
    · have e : runUp b v (n + 1) = runUp b v n + 1 := by simp [runUp, h]
      rw [e]
      refine ⟨by omega, fun k hk => ?_, fun hk => ?_⟩
      · cases k with
        | zero => simpa using h
        | succ k => rw [show W - (n + 1) + (k + 1) = W - n + k by omega]; exact hrun k (by omega)
      · rw [show W - (n + 1) + (runUp b v n + 1) = W - n + runUp b v n by omega]; exact hend (by omega)
    · have e : runUp b v (n + 1) = 0 := by simp [runUp, h]
      rw [e]
      refine ⟨by omega, fun k hk => absurd hk (by omega), fun _ => ?_⟩
      simpa using Bool.eq_not_of_ne h

/-! ### BYTEPICK -/

/-- Bit i of the picked bytes: of J below bit 8*sa, of K from there up (R120). -/
theorem getLsbD_pickBytes {W : Nat} (k j : BitVec W) {sa i : Nat} (hsa : 8 * sa ≤ W) (hi : i < W) :
    (pickBytes k j sa).getLsbD i = if i < 8 * sa then j.getLsbD (W - 8 * sa + i) else k.getLsbD (i - 8 * sa) := by
  rw [pickBytes, BitVec.getLsbD_extractLsb', BitVec.getLsbD_append]
  by_cases h : i < 8 * sa
  · simp [hi, h, show W - 8 * sa + i < W by omega]
  · simp [hi, h, show ¬ W - 8 * sa + i < W by omega, show W - 8 * sa + i - W = i - 8 * sa by omega]

/-! ### Bit strings -/

/-- Bit i of an insertion: of the source within the field, of the old value outside it (R170). -/
theorem getLsbD_insertField {W : Nat} (old src : BitVec W) {msb lsb i : Nat} (hm : msb < W) (hl : lsb ≤ msb) (hi : i < W) :
    (insertField old src msb lsb).getLsbD i =
      if lsb ≤ i ∧ i ≤ msb then src.getLsbD (i - lsb) else old.getLsbD i := by
  rw [insertField, BitVec.getLsbD_setWidth, BitVec.getLsbD_append, BitVec.getLsbD_append]
  simp only [BitVec.getLsbD_extractLsb', hi, decide_true, Bool.true_and]
  by_cases h1 : i < lsb
  · simp [h1, show ¬ (lsb ≤ i ∧ i ≤ msb) by omega]
  · by_cases h2 : i ≤ msb
    · simp [h1, show i - lsb < msb - lsb + 1 by omega, show lsb ≤ i ∧ i ≤ msb by omega]
    · have e : msb + 1 + (i - lsb - (msb - lsb + 1)) = i := by omega
      simp [h1, show ¬ i - lsb < msb - lsb + 1 by omega, show ¬ (lsb ≤ i ∧ i ≤ msb) by omega, e,
        show i - lsb - (msb - lsb + 1) < W - (msb + 1) by omega]

/-- Bit i of an extraction: of the field, right-justified, and 0 above it (R180). -/
theorem getLsbD_pickField {W : Nat} (v : BitVec W) {msb lsb i : Nat} (hi : i < W) :
    (pickField v msb lsb).getLsbD i = (decide (i ≤ msb - lsb) && v.getLsbD (lsb + i)) := by
  rw [pickField, BitVec.getLsbD_setWidth, BitVec.getLsbD_extractLsb]
  simp [hi]

end Sys2Proof.Machine
end

