-- ==== Sys2Proof/Laws/State.lean ====
section
/-! SUPPORT. What each update leaves of each field of State: one lemma per field per update, so that no proof unfolds a record
update. -/

namespace Sys2Proof.Machine

namespace State

@[simp] theorem setPc_gr (s : State) (t : DWord) : (s.setPc t).gr = s.gr := rfl
@[simp] theorem setPc_pc (s : State) (t : DWord) : (s.setPc t).pc = t := rfl
@[simp] theorem setPc_progBase (s : State) (t : DWord) : (s.setPc t).progBase = s.progBase := rfl
@[simp] theorem setPc_progLen (s : State) (t : DWord) : (s.setPc t).progLen = s.progLen := rfl
@[simp] theorem setPc_mem (s : State) (t : DWord) : (s.setPc t).mem = s.mem := rfl
@[simp] theorem setPc_endAddr (s : State) (t : DWord) : (s.setPc t).endAddr = s.endAddr := rfl

@[simp] theorem writeReg_pc (s : State) (r : Reg) (v : DWord) : (s.writeReg r v).pc = s.pc := by
  unfold writeReg; split <;> rfl
@[simp] theorem writeReg_progBase (s : State) (r : Reg) (v : DWord) : (s.writeReg r v).progBase = s.progBase := by
  unfold writeReg; split <;> rfl
@[simp] theorem writeReg_progLen (s : State) (r : Reg) (v : DWord) : (s.writeReg r v).progLen = s.progLen := by
  unfold writeReg; split <;> rfl
@[simp] theorem writeReg_mem (s : State) (r : Reg) (v : DWord) : (s.writeReg r v).mem = s.mem := by
  unfold writeReg; split <;> rfl
@[simp] theorem writeReg_endAddr (s : State) (r : Reg) (v : DWord) : (s.writeReg r v).endAddr = s.endAddr := by
  unfold writeReg; split <;> rfl

@[simp] theorem launch_gr (b : DWord) (p : List Word) (g : Vector DWord 31) : (launch b p g).gr = g := rfl
@[simp] theorem launch_pc (b : DWord) (p : List Word) (g : Vector DWord 31) : (launch b p g).pc = b := rfl
@[simp] theorem launch_progBase (b : DWord) (p : List Word) (g : Vector DWord 31) : (launch b p g).progBase = b := rfl
@[simp] theorem launch_progLen (b : DWord) (p : List Word) (g : Vector DWord 31) : (launch b p g).progLen = p.length := rfl
@[simp] theorem launch_mem (b : DWord) (p : List Word) (g : Vector DWord 31) :
    (launch b p g).mem = textCells b.toNat p := rfl

@[simp] theorem placeWord_gr (s : State) (w : Word) : (s.placeWord w).gr = s.gr := by
  unfold placeWord; split <;> rfl
@[simp] theorem placeWord_pc (s : State) (w : Word) : (s.placeWord w).pc = s.pc := by
  unfold placeWord; split <;> rfl

/-- Reset is the launch of the empty text with the values the log names. -/
theorem reset_eq_launch : State.reset = launch Config.resetBase [] (Vector.replicate 31 Config.resetGR) := rfl

/-! ### Reading a register after an update (R21, R22) -/

@[simp] theorem readReg_zero (s : State) : s.readReg 0 = 0 := rfl

@[simp] theorem readReg_setPc (s : State) (t : DWord) (r : Reg) : (s.setPc t).readReg r = s.readReg r := rfl

@[simp] theorem readReg_placeWord (s : State) (w : Word) (r : Reg) : (s.placeWord w).readReg r = s.readReg r := by
  simp [readReg]

@[simp] theorem writeReg_zero (s : State) (v : DWord) : s.writeReg 0 v = s := rfl

/-- What a write to a register does to every register: register 0 stays 0, rd takes the value, the others keep theirs. -/
theorem readReg_writeReg (s : State) (rd r : Reg) (v : DWord) :
    (s.writeReg rd v).readReg r = if r = rd ∧ r ≠ 0 then v else s.readReg r := by
  by_cases hd : rd = 0
  · subst hd
    have : ¬ (r = 0 ∧ r ≠ 0) := fun h => h.2 h.1
    simp [writeReg, this]
  · by_cases hr : r = 0
    · subst hr
      simp
    · have hv : rd.val - 1 = r.val - 1 ↔ r = rd := by
        have h1 := Fin.val_ne_of_ne hd
        have h2 := Fin.val_ne_of_ne hr
        rw [Fin.ext_iff]
        simp only [Fin.val_zero] at h1 h2
        omega
      by_cases h : r = rd
      · subst h
        simp [readReg, writeReg, hr, Vector.get_eq_getElem]
      · have hne : rd.val - 1 ≠ r.val - 1 := mt hv.1 h
        simp [readReg, writeReg, hd, hr, Vector.get_eq_getElem, h, hne]

end State

end Sys2Proof.Machine
end

