-- ==== Sys2Proof/Laws/Ops.lean ====
section
/-! SUPPORT. Everything the shared operations can do, said once: completing an instruction, fetching, executing, stepping. -/

namespace Sys2Proof.Machine

/-! ### Completing (R100 (a)) -/

@[simp] theorem complete_ne_fault (rd : Reg) (v : DWord) (s : State) (f : Fault) : complete rd v s ≠ .fault f := by
  simp [complete]
@[simp] theorem complete_ne_refused (rd : Reg) (v : DWord) (s : State) (r : Refusal) : complete rd v s ≠ .refused r := by
  simp [complete]

/-- What completing leaves: rd written unless it is 0, the pc advanced, the text as it was. -/
theorem complete_spec (rd : Reg) (v : DWord) (s : State) :
    ∃ t, complete rd v s = .next t ∧ (∀ r, t.readReg r = if r = rd ∧ r ≠ 0 then v else s.readReg r) ∧
      t.pc = s.pc + 4 ∧ t.progBase = s.progBase ∧ t.progLen = s.progLen ∧ t.mem = s.mem :=
  ⟨_, rfl, fun r => by simp [State.readReg_writeReg], by simp, by simp, by simp, by simp⟩

/-! ### Executing -/

/-- What an instruction can do: complete with some value in its destination, or fault before it writes anything. -/
theorem exec_cases (i : Instr) (s : State) :
    (∃ v, exec i s = complete i.dest v s) ∨ exec i s = .fault (.msbLessThanLsb s.pc (encode i)) := by
  cases i
  case bstrinsW rd rj m l =>
    by_cases h : m < l
    · exact .inr (by simp [exec, execBstrinsW, raise, h])
    · exact .inl ⟨_, by simp only [exec, execBstrinsW, if_neg h, Instr.dest]; rfl⟩
  case bstrinsD rd rj m l =>
    by_cases h : m < l
    · exact .inr (by simp [exec, execBstrinsD, raise, h])
    · exact .inl ⟨_, by simp only [exec, execBstrinsD, if_neg h, Instr.dest]; rfl⟩
  case bstrpickW rd rj m l =>
    by_cases h : m < l
    · exact .inr (by simp [exec, execBstrpickW, raise, h])
    · exact .inl ⟨_, by simp only [exec, execBstrpickW, if_neg h, Instr.dest]; rfl⟩
  case bstrpickD rd rj m l =>
    by_cases h : m < l
    · exact .inr (by simp [exec, execBstrpickD, raise, h])
    · exact .inl ⟨_, by simp only [exec, execBstrpickD, if_neg h, Instr.dest]; rfl⟩
  all_goals exact .inl ⟨_, rfl⟩

/-- If an instruction answers a next state, it is the state after one write to its destination and the advance of the pc. -/
theorem exec_next {i : Instr} {s t : State} (h : exec i s = .next t) :
    ∃ v, t = (s.writeReg i.dest v).setPc (s.pc + 4) := by
  rcases exec_cases i s with ⟨v, hv⟩ | hf
  · rw [h] at hv
    exact ⟨v, by simpa [complete] using hv⟩
  · rw [h] at hf
    cases hf

/-! ### Fetching (R43, R208) -/

/-- If the fetch answers a word, the pc passed the checks and the word stands at it. -/
theorem fetch_ok {s : State} {w : Word} (h : fetch s = .ok w) :
    s.pc.toNat ≠ s.endAddr ∧ s.pc.toNat % 4 = 0 ∧ s.inText ∧ Memory.readWord s.mem s.pc.toNat = some w := by
  unfold fetch at h
  split at h
  · cases h
  · split at h
    · cases h
    · split at h
      · cases h
      · split at h
        · cases h
          exact ⟨by assumption, by omega, not_not.1 (by assumption), by assumption⟩
        · cases h

/-- The fetch answers the word at a pc that passes the checks. -/
theorem fetch_of_word {s : State} {w : Word} (ha : s.pc.toNat % 4 = 0) (ht : s.inText)
    (hw : Memory.readWord s.mem s.pc.toNat = some w) : fetch s = .ok w := by
  have hne : s.pc.toNat ≠ s.endAddr := by have := ht.2; omega
  unfold fetch
  rw [if_neg hne, if_neg (not_not.2 ha), if_neg (not_not.2 ht), hw]

/-- What the fetch can answer instead of a word. -/
theorem fetch_error {s : State} {o : StepOutcome} (h : fetch s = .error o) :
    (s.pc.toNat = s.endAddr ∧ o = .refused (.final s)) ∨
    (s.pc.toNat ≠ s.endAddr ∧ s.pc.toNat % 4 ≠ 0 ∧ o = .fault (.fetchMisaligned s.pc)) ∨
    (s.pc.toNat ≠ s.endAddr ∧ s.pc.toNat % 4 = 0 ∧ (¬ s.inText ∨ Memory.readWord s.mem s.pc.toNat = none) ∧
      o = .fault (.fetchOutOfText s.pc)) := by
  unfold fetch at h
  split at h
  · rename_i he
    exact .inl ⟨he, by cases h; rfl⟩
  · rename_i he
    split at h
    · rename_i ha
      exact .inr (.inl ⟨he, ha, by cases h; rfl⟩)
    · rename_i ha
      split at h
      · rename_i ht
        exact .inr (.inr ⟨he, by omega, .inl ht, by cases h; rfl⟩)
      · split at h
        · cases h
        · rename_i hr
          exact .inr (.inr ⟨he, by omega, .inr hr, by cases h; rfl⟩)

/-! ### Stepping (R208) -/

theorem step_of_fetch_error {s : State} {o : StepOutcome} (h : fetch s = .error o) : step s = o := by
  simp [step, h]

theorem step_of_decode_error {s : State} {w : Word} {e : DecodeError} (h : fetch s = .ok w)
    (hd : decodeWord w = .error e) : step s = .refused (.notInScope s.pc w) := by
  simp [step, h, hd, refuseWord]

theorem step_of_decode_ok {s : State} {w : Word} {i : Instr} (h : fetch s = .ok w) (hd : decodeWord w = .ok i) :
    step s = exec i s := by
  simp [step, h, hd]

/-- Everything a step can do: stop at the fetch, refuse the word, or execute the instruction it decoded. -/
theorem step_cases (s : State) :
    (∃ o, fetch s = .error o ∧ step s = o) ∨
    (∃ w e, fetch s = .ok w ∧ decodeWord w = .error e ∧ step s = .refused (.notInScope s.pc w)) ∨
    (∃ w i, fetch s = .ok w ∧ decodeWord w = .ok i ∧ step s = exec i s) := by
  cases hf : fetch s with
  | error o => exact .inl ⟨o, rfl, step_of_fetch_error hf⟩
  | ok w =>
    cases hd : decodeWord w with
    | error e => exact .inr (.inl ⟨w, e, rfl, hd, step_of_decode_error hf hd⟩)
    | ok i => exact .inr (.inr ⟨w, i, rfl, hd, step_of_decode_ok hf hd⟩)

/-- If a step answers a next state, it executed the instruction whose word stands at the pc. -/
theorem step_next {s t : State} (h : step s = .next t) :
    ∃ w i, fetch s = .ok w ∧ decodeWord w = .ok i ∧ exec i s = .next t := by
  rcases step_cases s with ⟨o, hf, ho⟩ | ⟨w, e, hf, hd, ho⟩ | ⟨w, i, hf, hd, ho⟩
  · rw [h] at ho
    rcases fetch_error hf with ⟨_, h'⟩ | ⟨_, _, h'⟩ | ⟨_, _, _, h'⟩ <;> rw [h'] at ho <;> cases ho
  · rw [h] at ho; cases ho
  · exact ⟨w, i, hf, hd, ho ▸ h⟩

end Sys2Proof.Machine
end

