-- ==== Sys2Proof/Laws/PerInstr.lean ====
section
/-! SUPPORT. Statements for all instructions, one lemma per constructor. AsmRoundTrip: an instruction's line of assembly is read
back as the instruction (R69). -/

namespace Sys2Proof.Laws.AsmRoundTrip

/-- The assembler reads the line of an instruction as that instruction. -/
def Statement (i : Instr) : Prop := assemble (disassemble i) = .ok i

@[simp] theorem inRange_val {n : Nat} (a : Fin n) : inRange n a.val = some a := by simp [inRange]

/-- The form `rd, rj`. -/
theorem read2R {op : Reg → Reg → Instr} {m : String} (h : asmForms.lookup m = some (.rdRj op)) (rd rj : Reg) :
    assemble (line2R m rd rj) = .ok (op rd rj) := by
  simp [assemble, line2R, h, AsmForm.read]

theorem extWB (rd rj : Reg) : Statement (.extWB rd rj) := read2R rfl rd rj
theorem extWH (rd rj : Reg) : Statement (.extWH rd rj) := read2R rfl rd rj
theorem cloW (rd rj : Reg) : Statement (.cloW rd rj) := read2R rfl rd rj
theorem clzW (rd rj : Reg) : Statement (.clzW rd rj) := read2R rfl rd rj
theorem ctoW (rd rj : Reg) : Statement (.ctoW rd rj) := read2R rfl rd rj
theorem ctzW (rd rj : Reg) : Statement (.ctzW rd rj) := read2R rfl rd rj
theorem cloD (rd rj : Reg) : Statement (.cloD rd rj) := read2R rfl rd rj
theorem clzD (rd rj : Reg) : Statement (.clzD rd rj) := read2R rfl rd rj
theorem ctoD (rd rj : Reg) : Statement (.ctoD rd rj) := read2R rfl rd rj
theorem ctzD (rd rj : Reg) : Statement (.ctzD rd rj) := read2R rfl rd rj
theorem revb2H (rd rj : Reg) : Statement (.revb2H rd rj) := read2R rfl rd rj
theorem revb4H (rd rj : Reg) : Statement (.revb4H rd rj) := read2R rfl rd rj
theorem revb2W (rd rj : Reg) : Statement (.revb2W rd rj) := read2R rfl rd rj
theorem revbD (rd rj : Reg) : Statement (.revbD rd rj) := read2R rfl rd rj
theorem revh2W (rd rj : Reg) : Statement (.revh2W rd rj) := read2R rfl rd rj
theorem revhD (rd rj : Reg) : Statement (.revhD rd rj) := read2R rfl rd rj
theorem bitrev4B (rd rj : Reg) : Statement (.bitrev4B rd rj) := read2R rfl rd rj
theorem bitrev8B (rd rj : Reg) : Statement (.bitrev8B rd rj) := read2R rfl rd rj
theorem bitrevW (rd rj : Reg) : Statement (.bitrevW rd rj) := read2R rfl rd rj
theorem bitrevD (rd rj : Reg) : Statement (.bitrevD rd rj) := read2R rfl rd rj

/-- The form with a shift amount. -/
theorem readSa {n : Nat} {op : Reg → Reg → Reg → Fin n → Instr} {m : String}
    (h : asmForms.lookup m = some (.rdRjRkSa n op)) (rd rj rk : Reg) (sa : Fin n) :
    assemble (line3R m rd rj rk [.imm sa.val]) = .ok (op rd rj rk sa) := by
  simp [assemble, line3R, h, AsmForm.read]

theorem bytepickW (rd rj rk : Reg) (sa2 : Fin 4) : Statement (.bytepickW rd rj rk sa2) := readSa rfl rd rj rk sa2
theorem bytepickD (rd rj rk : Reg) (sa3 : Fin 8) : Statement (.bytepickD rd rj rk sa3) := readSa rfl rd rj rk sa3

/-- The form with two bit positions. -/
theorem readMsbLsb {n : Nat} {op : Reg → Reg → Fin n → Fin n → Instr} {m : String}
    (h : asmForms.lookup m = some (.rdRjMsbLsb n op)) (rd rj : Reg) (msb lsb : Fin n) :
    assemble (lineMsbLsb m rd rj msb.val lsb.val) = .ok (op rd rj msb lsb) := by
  simp [assemble, lineMsbLsb, h, AsmForm.read]

theorem bstrinsW (rd rj : Reg) (m l : Fin 32) : Statement (.bstrinsW rd rj m l) := readMsbLsb rfl rd rj m l
theorem bstrinsD (rd rj : Reg) (m l : Fin 64) : Statement (.bstrinsD rd rj m l) := readMsbLsb rfl rd rj m l
theorem bstrpickW (rd rj : Reg) (m l : Fin 32) : Statement (.bstrpickW rd rj m l) := readMsbLsb rfl rd rj m l
theorem bstrpickD (rd rj : Reg) (m l : Fin 64) : Statement (.bstrpickD rd rj m l) := readMsbLsb rfl rd rj m l

/-- The form `rd, rj, rk`. -/
theorem read3R {op : Reg → Reg → Reg → Instr} {m : String} (h : asmForms.lookup m = some (.rdRjRk op)) (rd rj rk : Reg) :
    assemble (line3R m rd rj rk []) = .ok (op rd rj rk) := by
  simp [assemble, line3R, h, AsmForm.read]

theorem maskeqz (rd rj rk : Reg) : Statement (.maskeqz rd rj rk) := read3R rfl rd rj rk
theorem masknez (rd rj rk : Reg) : Statement (.masknez rd rj rk) := read3R rfl rd rj rk

end Sys2Proof.Laws.AsmRoundTrip
end

