-- ==== Sys2Proof/Laws/Runs.lean ====
section
/-! SUPPORT. How a run goes, one step at a time: what the host's `Host.Core.run` unfolds to on this machine. -/

namespace Sys2Proof.Machine

/-- A run of one step more, on any machine. -/
theorem run_succ (M : Host.Core) (k : Nat) (s : M.State) :
    Host.Core.run M (k + 1) s = (match M.step s with
      | .next t => Host.Core.run M k t
      | .fault r => .fault r
      | .refused r => .refused r) := by
  cases h : M.step s <;> simp only [Host.Core.run, h]

/-- A run of no step is at the state it starts in. -/
theorem reaches_zero {s t : State} : Reaches s 0 t ↔ s = t := by
  constructor
  · intro h
    cases h
    rfl
  · rintro rfl
    rfl

/-- A run of one step more takes its first step and goes on from there. -/
theorem reaches_succ {k : Nat} {s t : State} : Reaches s (k + 1) t ↔ ∃ u, step s = .next u ∧ Reaches u k t := by
  unfold Reaches
  rw [run_succ Sys2Proof.core k s]
  constructor
  · intro h
    cases hs : Sys2Proof.core.step s with
    | next u => rw [hs] at h; exact ⟨u, hs, h⟩
    | fault _ => rw [hs] at h; cases h
    | refused _ => rw [hs] at h; cases h
  · rintro ⟨u, hs, h⟩
    have hs' : Sys2Proof.core.step s = .next u := hs
    rw [hs']
    exact h

/-- A run of one step more takes its last step from where the shorter run ends. -/
theorem reaches_snoc {k : Nat} {s t : State} : Reaches s (k + 1) t ↔ ∃ u, Reaches s k u ∧ step u = .next t := by
  induction k generalizing s with
  | zero =>
    rw [reaches_succ]
    simp only [reaches_zero]
    constructor
    · rintro ⟨u, h, rfl⟩; exact ⟨s, rfl, h⟩
    · rintro ⟨u, rfl, h⟩; exact ⟨t, h, rfl⟩
  | succ k ih =>
    rw [reaches_succ]
    simp only [ih]
    constructor
    · rintro ⟨v, hv, u, hu, h⟩; exact ⟨u, reaches_succ.2 ⟨v, hv, hu⟩, h⟩
    · rintro ⟨u, hu, h⟩
      obtain ⟨v, hv, hu⟩ := reaches_succ.1 hu
      exact ⟨v, hv, u, hu, h⟩

end Sys2Proof.Machine
end

