-- ==== Sys2Proof/Tests/Slice0.lean ====
section
/-! SUPPORT. Tests. Every expected value is the spec's: the vectors of 95_test_vectors.md, named by subsection, or the rule named.
The last part has a state and operands that meet the hypotheses of each statement that has any. -/

namespace Sys2Proof.Tests

open Sys2Proof.Machine

/-! ### Well-formedness: the check refuses each ill-formed term, and takes msb = lsb (R173, R183) -/

theorem test_wf_bstrinsW : (Instr.bstrinsW 1 2 0 31).wellFormed = false ∧ (Instr.bstrinsW 1 2 7 7).wellFormed = true := by decide
theorem test_wf_bstrinsD : (Instr.bstrinsD 1 2 31 32).wellFormed = false ∧ (Instr.bstrinsD 1 2 63 63).wellFormed = true := by
  decide
theorem test_wf_bstrpickW : (Instr.bstrpickW 1 2 30 31).wellFormed = false ∧ (Instr.bstrpickW 1 2 0 0).wellFormed = true := by
  decide
theorem test_wf_bstrpickD : (Instr.bstrpickD 1 2 0 63).wellFormed = false ∧ (Instr.bstrpickD 1 2 63 0).wellFormed = true := by
  decide

/-! ### Decoding: words of section 2.9 -/

/-- The decoder reads the four bytes, lowest address first, as the instruction, and the encoder gives their word back. -/
abbrev Reads (b0 b1 b2 b3 : Byte) (i : Instr) : Prop :=
  decodeBytes [b0, b1, b2, b3] = .ok (i, []) ∧ encode i = wordOfBytes b0 b1 b2 b3

theorem test_decode_extWB : Reads 0xA4 0x5C 0x00 0x00 (.extWB 4 5) := by decide
theorem test_decode_extWH : Reads 0xA4 0x58 0x00 0x00 (.extWH 4 5) := by decide
theorem test_decode_cloW : Reads 0xA4 0x10 0x00 0x00 (.cloW 4 5) := by decide
theorem test_decode_clzW : Reads 0xA4 0x14 0x00 0x00 (.clzW 4 5) := by decide
theorem test_decode_ctoW : Reads 0xA4 0x18 0x00 0x00 (.ctoW 4 5) := by decide
theorem test_decode_ctzW : Reads 0xA4 0x1C 0x00 0x00 (.ctzW 4 5) := by decide
theorem test_decode_cloD : Reads 0xA4 0x20 0x00 0x00 (.cloD 4 5) := by decide
theorem test_decode_clzD : Reads 0xA4 0x24 0x00 0x00 (.clzD 4 5) := by decide
theorem test_decode_ctoD : Reads 0xA4 0x28 0x00 0x00 (.ctoD 4 5) := by decide
theorem test_decode_ctzD : Reads 0xA4 0x2C 0x00 0x00 (.ctzD 4 5) := by decide
theorem test_decode_revb2H : Reads 0xA4 0x30 0x00 0x00 (.revb2H 4 5) := by decide
theorem test_decode_revb4H : Reads 0xA4 0x34 0x00 0x00 (.revb4H 4 5) := by decide
theorem test_decode_revb2W : Reads 0xA4 0x38 0x00 0x00 (.revb2W 4 5) := by decide
theorem test_decode_revbD : Reads 0xA4 0x3C 0x00 0x00 (.revbD 4 5) := by decide
theorem test_decode_revh2W : Reads 0xA4 0x40 0x00 0x00 (.revh2W 4 5) := by decide
theorem test_decode_revhD : Reads 0xA4 0x44 0x00 0x00 (.revhD 4 5) := by decide
theorem test_decode_bitrev4B : Reads 0xA4 0x48 0x00 0x00 (.bitrev4B 4 5) := by decide
theorem test_decode_bitrev8B : Reads 0xA4 0x4C 0x00 0x00 (.bitrev8B 4 5) := by decide
theorem test_decode_bitrevW : Reads 0xA4 0x50 0x00 0x00 (.bitrevW 4 5) := by decide
theorem test_decode_bitrevD : Reads 0xA4 0x54 0x00 0x00 (.bitrevD 4 5) := by decide
theorem test_decode_bytepickW : Reads 0xA4 0x98 0x08 0x00 (.bytepickW 4 5 6 1) := by decide
theorem test_decode_bytepickD : Reads 0xA4 0x98 0x0E 0x00 (.bytepickD 4 5 6 5) := by decide
theorem test_decode_maskeqz : Reads 0xA4 0x18 0x13 0x00 (.maskeqz 4 5 6) := by decide
theorem test_decode_masknez : Reads 0xA4 0x98 0x13 0x00 (.masknez 4 5 6) := by decide
theorem test_decode_bstrinsW : Reads 0xA4 0x20 0x6F 0x00 (.bstrinsW 4 5 15 8) := by decide
theorem test_decode_bstrpickW : Reads 0xA4 0xA0 0x6F 0x00 (.bstrpickW 4 5 15 8) := by decide
theorem test_decode_bstrinsD : Reads 0xA4 0x80 0xAF 0x00 (.bstrinsD 4 5 47 32) := by decide
theorem test_decode_bstrpickD : Reads 0xA4 0x80 0xEF 0x00 (.bstrpickD 4 5 47 32) := by decide

/-- Rows at the ends of their ranges (2.9). -/
theorem test_decode_all_ones : Reads 0xFF 0x5F 0x00 0x00 (.extWB 31 31) ∧ Reads 0xFF 0xFF 0x09 0x00 (.bytepickW 31 31 31 3) ∧
    Reads 0xFF 0xFF 0x0F 0x00 (.bytepickD 31 31 31 7) ∧ Reads 0xFF 0xFF 0x13 0x00 (.masknez 31 31 31) ∧
    Reads 0xFF 0xFF 0x7F 0x00 (.bstrpickW 31 31 31 31) ∧ Reads 0xFF 0xFF 0xBF 0x00 (.bstrinsD 31 31 63 63) ∧
    Reads 0xFF 0xFF 0xFF 0x00 (.bstrpickD 31 31 63 63) := by decide
/-- msb < lsb decodes to its row (2.9). -/
theorem test_decode_msb_below_lsb : Reads 0x41 0xFC 0x60 0x00 (.bstrpickW 1 2 0 31) ∧
    Reads 0x41 0xFC 0x80 0x00 (.bstrinsD 1 2 0 63) := by decide
/-- Words beside the rows (2.9). -/
theorem test_decode_refuses_low : decodeWord 0x00000000 = .error (.notInScope 0x00000000) ∧
    decodeWord 0x00000C00 = .error (.notInScope 0x00000C00) ∧
    decodeWord 0x00006000 = .error (.notInScope 0x00006000) ∧
    decodeWord 0x000A0000 = .error (.notInScope 0x000A0000) ∧
    decodeWord 0x00128000 = .error (.notInScope 0x00128000) ∧
    decodeWord 0x00140000 = .error (.notInScope 0x00140000) := by decide
theorem test_decode_refuses_high : decodeWord 0x00400000 = .error (.notInScope 0x00400000) ∧
    decodeWord 0x01000000 = .error (.notInScope 0x01000000) ∧
    decodeWord 0x001018A4 = .error (.notInScope 0x001018A4) ∧
    decodeWord 0xFFFFFFFF = .error (.notInScope 0xFFFFFFFF) ∧
    decodeWord 0x80003885 = .error (.notInScope 0x80003885) := by decide
/-- Three bytes are no word (R60). -/
theorem test_decode_truncated : decodeBytes [0xA4, 0x5C, 0x00] = .error .truncated := by decide
/-- The host's numbering: bit 0 is the least significant bit of the word (R60, R64). -/
theorem test_decode_table_word : decodeTableWord 32 0x00DF0084 = some (.bstrpickD 4 4 31 0) ∧
    decodeTableWord 32 0x80003885 = none := by decide

/-! ### Assembly (R69, R67) -/

theorem test_asm_line : assemble ⟨"bstrpick.w", [.reg 1, .reg 2, .imm 15, .imm 8]⟩ = .ok (.bstrpickW 1 2 15 8) := by decide
theorem test_asm_text : (disassemble (.bytepickD 4 5 6 3)).text = "bytepick.d $r4, $r5, $r6, 3" := by decide
theorem test_asm_out_of_range : assemble ⟨"bstrins.w", [.reg 1, .reg 2, .imm 32, .imm 0]⟩ = .error .outOfRange ∧
    assemble ⟨"ext.w.b", [.reg 32, .reg 2]⟩ = .error .outOfRange := by decide
/-- Read from characters: a register name of the toolchain, a hexadecimal immediate, white space (R69, R70). -/
theorem test_asm_read : assembleText "bstrpick.d  $a0,$r4 , 0x1F, 0" = .ok (.bstrpickD 4 4 31 0) := by decide +kernel
theorem test_asm_read_refuses : assembleText "revb.d $r32, $ra" = .error .outOfRange ∧
    assembleText "revb.d $rx, $ra" = .error .unreadable := by decide +kernel
/-- The listing's misprint of EXT.W.B is no mnemonic (C1). -/
theorem test_asm_misprint : assemble ⟨"ext.wb", [.reg 1, .reg 2]⟩ = .error .unknownMnemonic := by decide
theorem test_abi_names : abiNames 4 = ["$a0"] ∧ abiNames 20 = ["$t8"] ∧ abiNames 21 = [] ∧ abiNames 31 = ["$s8"] := by decide

/-! ### Results: sections 2.1 to 2.8 -/

/-- The launch of a text at 0x10000 with the given registers, the others 0. -/
def start (prog : List Word) (regs : List (Reg × DWord)) : State :=
  regs.foldl (fun s p => s.writeReg p.1 p.2) (State.launch 0x10000 prog (Vector.replicate 31 0))

/-- What the instruction leaves in its destination, and the pc, when it completes. -/
def result (i : Instr) (regs : List (Reg × DWord)) : Option (DWord × DWord) :=
  match exec i (start [] regs) with
  | .next t => some (t.readReg i.dest, t.pc)
  | _ => none

/-- The instruction completes, its destination holds `v` afterwards and the pc has advanced by 4. -/
abbrev Gives (i : Instr) (regs : List (Reg × DWord)) (v : DWord) : Prop := result i regs = some (v, 0x10004)

theorem test_extWB_negative : Gives (.extWB 4 5) [(5, 0x1234567890ABCD80)] 0xFFFFFFFFFFFFFF80 := by decide
theorem test_extWB_ignores_upper : Gives (.extWB 4 5) [(5, 0x0000000000008000)] 0 := by decide
theorem test_extWH_negative : Gives (.extWH 4 5) [(5, 0x1234567890ABCD80)] 0xFFFFFFFFFFFFCD80 := by decide
theorem test_extWH_positive : Gives (.extWH 4 5) [(5, 0x00000000FFFF7F7F)] 0x7F7F := by decide
theorem test_cloW_part : Gives (.cloW 4 5) [(5, 0xFFFFFFFFFFFFFFFE)] 31 := by decide
theorem test_cloW_corner : Gives (.cloW 4 5) [(5, 0xFFFFFFFFFFFFFFFF)] 32 := by decide
theorem test_clzW_part : Gives (.clzW 4 5) [(5, 0x00F0000000000F00)] 20 := by decide
theorem test_clzW_corner : Gives (.clzW 4 5) [(5, 0x0000000100000000)] 32 := by decide
theorem test_ctoW_part : Gives (.ctoW 4 5) [(5, 0xFFFFFFFE7FFFFFFF)] 31 := by decide
theorem test_ctoW_corner : Gives (.ctoW 4 5) [(5, 0xFFFFFFFFFFFFFFFF)] 32 := by decide
theorem test_ctzW_part : Gives (.ctzW 4 5) [(5, 0x00F0000000000F00)] 8 := by decide
theorem test_ctzW_corner : Gives (.ctzW 4 5) [(5, 0x0000000100000000)] 32 := by decide
theorem test_cloD_part : Gives (.cloD 4 5) [(5, 0xFFFFFFFE7FFFFFFF)] 31 := by decide
theorem test_cloD_corner : Gives (.cloD 4 5) [(5, 0xFFFFFFFFFFFFFFFF)] 64 := by decide
theorem test_clzD_part : Gives (.clzD 4 5) [(5, 0x00F0000000000F00)] 8 := by decide
theorem test_clzD_corner : Gives (.clzD 4 5) [(5, 0x0000000000000000)] 64 := by decide
theorem test_ctoD_part : Gives (.ctoD 4 5) [(5, 0xFFFFFFFE7FFFFFFF)] 31 := by decide
theorem test_ctoD_corner : Gives (.ctoD 4 5) [(5, 0xFFFFFFFFFFFFFFFF)] 64 := by decide
theorem test_ctzD_part : Gives (.ctzD 4 5) [(5, 0x8000000000000000)] 63 := by decide
theorem test_ctzD_corner : Gives (.ctzD 4 5) [(5, 0x0000000000000000)] 64 := by decide
theorem test_bytepickW_pair :
    Gives (.bytepickW 4 5 6 3) [(5, 0x1122334455667788), (6, 0x99AABBCCDDEEFF00)] 0x0000000000556677 := by decide
theorem test_bytepickW_sign :
    Gives (.bytepickW 4 5 6 1) [(5, 0xFFFFFFFF80000001), (6, 0x000000007FFFFF80)] 0xFFFFFFFFFFFF8080 := by decide
theorem test_bytepickD_pair :
    Gives (.bytepickD 4 5 6 5) [(5, 0x1122334455667788), (6, 0x99AABBCCDDEEFF00)] 0xEEFF001122334455 := by decide
theorem test_bytepickD_aliased :
    Gives (.bytepickD 4 4 5 2) [(4, 0x1122334455667788), (5, 0x99AABBCCDDEEFF00)] 0xBBCCDDEEFF001122 := by decide
theorem test_revb2H_A : Gives (.revb2H 4 5) [(5, 0x0123456789ABCDEF)] 0xFFFFFFFFAB89EFCD := by decide
theorem test_revb2H_mixed : Gives (.revb2H 5 5) [(5, 0x1122334455667788)] 0x0000000066558877 := by decide
theorem test_revb4H_A : Gives (.revb4H 4 5) [(5, 0x0123456789ABCDEF)] 0x23016745AB89EFCD := by decide
theorem test_revb4H_mixed : Gives (.revb4H 5 5) [(5, 0x1122334455667788)] 0x2211443366558877 := by decide
theorem test_revb2W_A : Gives (.revb2W 4 5) [(5, 0x0123456789ABCDEF)] 0x67452301EFCDAB89 := by decide
theorem test_revb2W_mixed : Gives (.revb2W 5 5) [(5, 0x1122334455667788)] 0x4433221188776655 := by decide
theorem test_revbD_A : Gives (.revbD 4 5) [(5, 0x0123456789ABCDEF)] 0xEFCDAB8967452301 := by decide
theorem test_revbD_mixed : Gives (.revbD 5 5) [(5, 0x1122334455667788)] 0x8877665544332211 := by decide
theorem test_revh2W_A : Gives (.revh2W 4 5) [(5, 0x0123456789ABCDEF)] 0x45670123CDEF89AB := by decide
theorem test_revh2W_mixed : Gives (.revh2W 5 5) [(5, 0x1122334455667788)] 0x3344112277885566 := by decide
theorem test_revhD_A : Gives (.revhD 4 5) [(5, 0x0123456789ABCDEF)] 0xCDEF89AB45670123 := by decide
theorem test_revhD_mixed : Gives (.revhD 5 5) [(5, 0x1122334455667788)] 0x7788556633441122 := by decide
theorem test_bitrev4B_A : Gives (.bitrev4B 4 5) [(5, 0x0123456789ABCDEF)] 0xFFFFFFFF91D5B3F7 := by decide
theorem test_bitrev4B_mixed : Gives (.bitrev4B 5 5) [(5, 0x1122334455667788)] 0xFFFFFFFFAA66EE11 := by decide
theorem test_bitrev8B_A : Gives (.bitrev8B 4 5) [(5, 0x0123456789ABCDEF)] 0x80C4A2E691D5B3F7 := by decide
theorem test_bitrev8B_mixed : Gives (.bitrev8B 5 5) [(5, 0x1122334455667788)] 0x8844CC22AA66EE11 := by decide
theorem test_bitrevW_A : Gives (.bitrevW 4 5) [(5, 0x0123456789ABCDEF)] 0xFFFFFFFFF7B3D591 := by decide +kernel
theorem test_bitrevW_mixed : Gives (.bitrevW 5 5) [(5, 0x1122334455667788)] 0x0000000011EE66AA := by decide +kernel
theorem test_bitrevD_A : Gives (.bitrevD 4 5) [(5, 0x0123456789ABCDEF)] 0xF7B3D591E6A2C480 := by decide +kernel
theorem test_bitrevD_mixed : Gives (.bitrevD 5 5) [(5, 0x1122334455667788)] 0x11EE66AA22CC4488 := by decide +kernel
theorem test_bstrinsW_low_bits_only :
    Gives (.bstrinsW 4 5 11 4) [(4, 0x123456789ABCDEF0), (5, 0xFFFFFFFFFFFFFFA5)] 0xFFFFFFFF9ABCDA50 := by decide
theorem test_bstrinsW_clears_sign : Gives (.bstrinsW 4 5 31 31) [(4, 0x00000000FFFFFFFF)] 0x000000007FFFFFFF := by decide
theorem test_bstrinsD_upper :
    Gives (.bstrinsD 4 5 63 32) [(4, 0x0123456789ABCDEF), (5, 0xFEDCBA9876543210)] 0x7654321089ABCDEF := by decide
theorem test_bstrinsD_aliased : Gives (.bstrinsD 4 4 15 8) [(4, 0x0123456789ABCDEF)] 0x0123456789ABEFEF := by decide
theorem test_bstrpickW_whole : Gives (.bstrpickW 4 5 31 0) [(5, 0x0123456789ABCDEF)] 0xFFFFFFFF89ABCDEF := by decide
theorem test_bstrpickW_one_bit : Gives (.bstrpickW 4 5 31 31) [(5, 0x0000000080000000)] 1 := by decide
theorem test_bstrpickD_upper : Gives (.bstrpickD 4 5 63 32) [(5, 0xFEDCBA9876543210)] 0x00000000FEDCBA98 := by decide
theorem test_bstrpickD_middle : Gives (.bstrpickD 4 5 47 16) [(5, 0x0123456789ABCDEF)] 0x00000000456789AB := by decide
theorem test_maskeqz_upper_half :
    Gives (.maskeqz 4 5 6) [(5, 0x0123456789ABCDEF), (6, 0x0000000100000000)] 0x0123456789ABCDEF := by decide
theorem test_maskeqz_zero : Gives (.maskeqz 4 5 0) [(5, 0x0123456789ABCDEF)] 0 := by decide
theorem test_masknez_upper_half : Gives (.masknez 4 5 6) [(5, 0x0123456789ABCDEF), (6, 0x0000000100000000)] 0 := by decide
theorem test_masknez_zero : Gives (.masknez 4 5 0) [(5, 0x0123456789ABCDEF)] 0x0123456789ABCDEF := by decide

/-- A write to register 0 is lost, and the pc still advances (2.8, R22). -/
theorem test_write_to_zero : exec (.revbD 0 5) (start [] [(5, 0x0123456789ABCDEF)]) =
    .next ((start [] [(5, 0x0123456789ABCDEF)]).setPc 0x10004) := by rfl

/-! ### Steps (R208; 95_test_vectors.md section 3 names such programs' ends) -/

/-- The end address (R233), a misaligned pc, a pc below and one above the text. -/
theorem test_step_final : step (start [] []) = .refused (.final (start [] [])) := by rfl
theorem test_step_misaligned : step ((start [0x00003CA4] []).setPc 0x10002) = .fault (.fetchMisaligned 0x10002) := by rfl
theorem test_step_below_text : step ((start [0x00003CA4] []).setPc 0xFFFC) = .fault (.fetchOutOfText 0xFFFC) := by rfl
theorem test_step_above_text : step ((start [0x00003CA4] []).setPc 0x10008) = .fault (.fetchOutOfText 0x10008) := by rfl
/-- A misaligned pc out of the text is misaligned first (R208). -/
theorem test_step_misaligned_first : step ((start [] []).setPc 0xFFFD) = .fault (.fetchMisaligned 0xFFFD) := by rfl
/-- ADD.W, a word out of scope (R202), and msb < lsb (R205). -/
theorem test_step_not_in_scope : step (start [0x001018A4] []) = .refused (.notInScope 0x10000 0x001018A4) := by rfl
theorem test_step_msb_below_lsb : step (start [0x0060FC41] []) = .fault (.msbLessThanLsb 0x10000 0x0060FC41) := by rfl
/-- The first step after reset ends the empty text, and runs a word placed for it (log 5). -/
theorem test_reset_step : step State.reset = .refused (.final State.reset) := by rfl
theorem test_withFetchWord : step (State.reset.withFetchWord 32 0x000024A4) =
    exec (.clzD 4 5) (State.reset.withFetchWord 32 0x000024A4) := by rfl

/-! ### Witnesses: the hypotheses of each statement that has any are met, at the ends of their ranges -/

/-- BstrinsWInsertsField, BstrpickWExtractsField, and the .W clauses of the two formulas. -/
theorem witness_field_W : (0 : Fin 32) ≤ 0 ∧ (0 : Fin 32) ≤ 31 ∧ (31 : Fin 32) ≤ 31 := by decide
/-- BstrinsDInsertsField, BstrpickDExtractsField, and the .D clauses of the two formulas. -/
theorem witness_field_D : (0 : Fin 64) ≤ 0 ∧ (0 : Fin 64) ≤ 63 ∧ (63 : Fin 64) ≤ 63 := by decide
/-- BstrinsFaultsOnMsbBelowLsb and BstrpickFaultsOnMsbBelowLsb, both widths. -/
theorem witness_msb_below_lsb : (0 : Fin 32) < 31 ∧ (30 : Fin 32) < 31 ∧ (0 : Fin 64) < 63 ∧ (62 : Fin 64) < 63 := by decide
/-- CountLaws: both kinds of string at width 1, where exactly one of the counts is nonzero. -/
theorem witness_CountLaws : 0 < 1 ∧ clo (1#1) = 1 ∧ clz (1#1) = 0 ∧ clo (0#1) = 0 ∧ clz (0#1) = 1 := by decide
/-- ReversalsAreInvolutions, ReversalsCompose, BytepickOfOneRegisterRotates, CompilerIdentities: rd other than 0, rd = rj too. -/
theorem witness_rd_nonzero : (1 : Reg) ≠ 0 ∧ (31 : Reg) ≠ 0 := by decide
theorem witness_ReversalsAreInvolutions : Instr.revb4H ∈ [Instr.revb4H, Instr.revb2W, Instr.revbD, Instr.revh2W, Instr.revhD,
    Instr.bitrev8B, Instr.bitrevD] := by simp
theorem witness_ReversalsCompose : (Instr.bitrev8B, Instr.revbD, Instr.bitrevD) ∈ [(Instr.revb4H, Instr.revhD, Instr.revbD),
    (Instr.revb4H, Instr.revh2W, Instr.revb2W), (Instr.bitrev8B, Instr.revbD, Instr.bitrevD)] := by simp
/-- MaskPairSelects: r1 = 4, r2 = 5, b = 6, c = 5; r2 may be a source. -/
theorem witness_MaskPairSelects : (4 : Reg) ≠ 0 ∧ (5 : Reg) ≠ 0 ∧ (4 : Reg) ≠ 5 ∧ (4 : Reg) ≠ 6 := by decide
/-- EveryWellFormedInstructionCompletes: a term of each clause, beside each other. -/
theorem witness_EveryWellFormedInstructionCompletes : (Instr.bstrinsD 4 5 63 63).wellFormed = true ∧
    (Instr.bstrinsD 4 5 62 63).wellFormed = false := by decide
theorem witness_ZeroRegisterDiscardsWrites : (Instr.revbD 0 5).wellFormed = true ∧ (Instr.revbD 0 5).dest = 0 := by decide
/-- ResultDependsOnSourcesOnly: two states that differ in a register that is not read and in the pc. -/
theorem witness_ResultDependsOnSourcesOnly :
    (∀ r ∈ (Instr.clzD 4 5).sources, (start [] [(5, 7)]).readReg r = ((start [] [(5, 7), (6, 1)]).setPc 0).readReg r) ∧
    ∃ t, exec (.clzD 4 5) (start [] [(5, 7)]) = .next t := ⟨by decide, _, rfl⟩
/-- WordFormsIgnoreUpperHalves: two states that differ in the upper half of what is read. -/
theorem witness_WordFormsIgnoreUpperHalves :
    (∀ r ∈ (Instr.clzW 4 5).sources,
      ((start [] [(5, 7)]).readReg r).setWidth 32 = ((start [] [(5, 0xFFFFFFFF00000007)]).readReg r).setWidth 32) ∧
    ∃ t, exec (.clzW 4 5) (start [] [(5, 7)]) = .next t := ⟨by decide, _, rfl⟩
theorem witness_EncodeOfDecode : decodeWord 0x0060FC41 = .ok (.bstrpickW 1 2 0 31) := by decide
/-- RowsAreDisjointRanges, the first two clauses: rows that fit a word; two 2R words with the same bits 14..10. -/
theorem witness_RowsAreDisjointRanges_rows : row2R "revb.d" 0x00003C00 .revbD ∈ opcodeTable ∧
    (row2R "revb.d" 0x00003C00 .revbD).fits 0x00003C00 = true ∧ (row2R "revb.d" 0x00003C00 .revbD).fits 0x00003FFF = true ∧
    (row2R "revb.d" 0x00003C00 .revbD).mask = 0xFFFFFC00 ∧
    (0x00003C00 : Word).extractLsb' 10 5 = (0x00003FFF : Word).extractLsb' 10 5 :=
  ⟨List.mem_of_getElem? (i := 15) rfl, by decide, by decide, by decide, by decide⟩
/-- RowsAreDisjointRanges, the third clause: the lowest and the highest word of each row. -/
theorem witness_RowsAreDisjointRanges_low : decodeWord 0x00001000 = .ok (.cloW 0 0) ∧
    decodeWord 0x00080000 = .ok (.bytepickW 0 0 0 0) ∧ decodeWord 0x000C0000 = .ok (.bytepickD 0 0 0 0) ∧
    decodeWord 0x00130000 = .ok (.maskeqz 0 0 0) ∧ decodeWord 0x00138000 = .ok (.masknez 0 0 0) ∧
    decodeWord 0x00600000 = .ok (.bstrinsW 0 0 0 0) ∧ decodeWord 0x00608000 = .ok (.bstrpickW 0 0 0 0) ∧
    decodeWord 0x00800000 = .ok (.bstrinsD 0 0 0 0) ∧ decodeWord 0x00C00000 = .ok (.bstrpickD 0 0 0 0) := by decide
theorem witness_RowsAreDisjointRanges_high : decodeWord 0x00005FFF = .ok (.extWB 31 31) ∧
    decodeWord 0x0009FFFF = .ok (.bytepickW 31 31 31 3) ∧ decodeWord 0x000FFFFF = .ok (.bytepickD 31 31 31 7) ∧
    decodeWord 0x00137FFF = .ok (.maskeqz 31 31 31) ∧ decodeWord 0x0013FFFF = .ok (.masknez 31 31 31) ∧
    decodeWord 0x007F7FFF = .ok (.bstrinsW 31 31 31 31) ∧ decodeWord 0x007FFFFF = .ok (.bstrpickW 31 31 31 31) ∧
    decodeWord 0x00BFFFFF = .ok (.bstrinsD 31 31 63 63) ∧ decodeWord 0x00FFFFFF = .ok (.bstrpickD 31 31 63 63) := by decide

/-- A text of two instructions: REVB.D r4, r5 and MASKNEZ r4, r5, r6. -/
def sample : State := start [0x00003CA4, 0x001398A4] [(5, 0x0123456789ABCDEF)]

/-- StepRunsTheDecodedInstruction, at the last word of a text. -/
theorem witness_StepRunsTheDecodedInstruction : let s := sample.setPc 0x10004
    s.pc.toNat % 4 = 0 ∧ s.progBase.toNat ≤ s.pc.toNat ∧ s.pc.toNat + 4 ≤ s.progBase.toNat + 4 * s.progLen ∧
    Memory.read s.mem s.pc.toNat = some 0xA4 ∧ Memory.read s.mem (s.pc.toNat + 1) = some 0x98 ∧
    Memory.read s.mem (s.pc.toNat + 2) = some 0x13 ∧ Memory.read s.mem (s.pc.toNat + 3) = some 0x00 ∧
    decodeBytes [0xA4, 0x98, 0x13, 0x00] = .ok (.masknez 4 5 6, []) := by decide
/-- StepChecksInOrder (1): pc at the end address. -/
theorem witness_StepChecksInOrder_final : let s := sample.setPc 0x10008
    s.pc.toNat = s.progBase.toNat + 4 * s.progLen := by decide
/-- (2): the last address before the end address, misaligned. -/
theorem witness_StepChecksInOrder_misaligned : let s := sample.setPc 0x10007
    s.pc.toNat ≠ s.progBase.toNat + 4 * s.progLen ∧ s.pc.extractLsb 1 0 ≠ 0 := by decide
/-- (3): the aligned addresses just below the text and just above its end address. -/
theorem witness_StepChecksInOrder_outOfText : (let s := sample.setPc 0xFFFC
    s.pc.toNat ≠ s.progBase.toNat + 4 * s.progLen ∧ s.pc.extractLsb 1 0 = 0 ∧ s.pc < s.progBase) ∧
    (let s := sample.setPc 0x1000C
    s.pc.toNat ≠ s.progBase.toNat + 4 * s.progLen ∧ s.pc.extractLsb 1 0 = 0 ∧
      s.progBase.toNat + 4 * s.progLen < s.pc.toNat + 4) := by decide
/-- (4) to (6): the first and the last word of a text; a word of no row, one with msb < lsb and one that runs. -/
theorem witness_StepChecksInOrder_word : (let s := start [0x00006000] []
    s.pc.toNat ≠ s.progBase.toNat + 4 * s.progLen ∧ s.pc.extractLsb 1 0 = 0 ∧
      (s.progBase ≤ s.pc ∧ s.pc.toNat + 4 ≤ s.progBase.toNat + 4 * s.progLen) ∧
      Memory.readWord s.mem s.pc.toNat = some 0x00006000) ∧
    Memory.readWord (start [0x0060FC41] []).mem 0x10000 = some 0x0060FC41 ∧
    (let s := sample.setPc 0x10004
    (s.progBase ≤ s.pc ∧ s.pc.toNat + 4 ≤ s.progBase.toNat + 4 * s.progLen) ∧
      Memory.readWord s.mem s.pc.toNat = some 0x001398A4) := by decide
/-- LaunchPlacesTextAndRegisters: the first and last byte of a text and the addresses beside it. -/
theorem witness_LaunchPlacesTextAndRegisters : Memory.read sample.mem 0x10000 = some 0xA4 ∧
    Memory.read sample.mem 0x10007 = some 0x00 ∧ Memory.read sample.mem 0xFFFF = none ∧
    Memory.read sample.mem 0x10008 = none := by decide
/-- InvariantAtLaunch, FetchFaultsUnreachable, FetchReturnsThePlacedWord: admissible launches, one ending at
the last address a text can end at. -/
theorem witness_Admissible : Admissible 0x10000 [0x00003CA4, 0x001398A4] ∧ Admissible 0xFFFFFFFFFFFFFFF8 [0x00003CA4] ∧
    Admissible 0 [] := by unfold Admissible; decide
/-- InvariantKeptByStep: a state with a next state. -/
theorem witness_InvariantKeptByStep : sample.Inv ∧ ∃ t, step sample = .next t :=
  ⟨⟨by decide, by decide, by decide, by decide, by decide, by decide⟩, _, rfl⟩
/-- FetchFaultsUnreachable, FetchReturnsThePlacedWord: a state a run reaches before the end of its text. -/
theorem witness_Reaches : ∃ s, Reaches (State.launch 0x10000 [0x00003CA4, 0x001398A4] (Vector.replicate 31 0)) 1 s ∧
    s.pc.toNat ≠ 0x10000 + 4 * 2 := ⟨_, rfl, by decide⟩
/-- TextOfInstructionsRunsToFinal. -/
theorem witness_TextOfInstructionsRunsToFinal : (∀ i ∈ [Instr.revbD 4 5, .bstrinsW 4 5 31 31], i.wellFormed = true) ∧
    Admissible 0x10000 ([Instr.revbD 4 5, .bstrinsW 4 5 31 31].map encode) := by unfold Admissible; decide

end Sys2Proof.Tests
end

section
/-! The laws between the counts and bit reversal (R110). Counting upward is counting downward in the reversed string, so the
laws of CTO and CTZ are those of CLO and CLZ at BITREV(v). -/

namespace Sys2Proof.Machine

/-- Counting downward in NOT v counts the bits of `v` that differ from `b`. -/
theorem runDown_not {W : Nat} (b : Bool) (v : BitVec W) {n : Nat} (hn : n ≤ W) :
    runDown b (~~~v) n = runDown (!b) v n := by
  induction n with
  | zero => rfl
  | succ n ih =>
    have hbit : (~~~v).getLsbD n = !v.getLsbD n := by simp [show n < W by omega]
    rw [runDown, runDown, ih (by omega), hbit]
    simp only [Bool.not_eq_eq_eq_not]

/-- A run is nonempty exactly when its first bit belongs to it. -/
theorem runDown_succ_eq_zero_iff {W : Nat} (b : Bool) (v : BitVec W) (n : Nat) :
    runDown b v (n + 1) = 0 ↔ v.getLsbD n = !b := by
  rw [runDown, Bool.eq_not_iff]
  by_cases h : v.getLsbD n = b <;> simp [h]

theorem runUp_eq_runDown_bitrev {W : Nat} (b : Bool) (v : BitVec W) {n : Nat} (hn : n ≤ W) :
    runUp b v n = runDown b (bitrev v) n := by
  induction n with
  | zero => rfl
  | succ n ih =>
    have hbit : (bitrev v).getLsbD n = v.getLsbD (W - (n + 1)) := by
      rw [getLsbD_bitrev v (by omega), Nat.sub_sub, Nat.add_comm 1 n]
    rw [runUp, runDown, ih (by omega), hbit]

theorem bitrev_not {W : Nat} (v : BitVec W) : bitrev (~~~v) = ~~~(bitrev v) := by
  refine BitVec.eq_of_getLsbD_eq fun i hi => ?_
  rw [getLsbD_bitrev _ hi, BitVec.getLsbD_not, BitVec.getLsbD_not, getLsbD_bitrev _ hi]
  simp [hi, show W - 1 - i < W by omega]

theorem clz_eq_clo_not {W : Nat} (v : BitVec W) : clz v = clo (~~~v) :=
  (runDown_not true v le_rfl).symm

theorem clo_ne_zero_iff {W : Nat} (v : BitVec W) (hW : 0 < W) : clo v ≠ 0 ↔ clz v = 0 := by
  obtain ⟨n, rfl⟩ : ∃ n, W = n + 1 := ⟨W - 1, by omega⟩
  rw [clo, clz, ne_eq, runDown_succ_eq_zero_iff, runDown_succ_eq_zero_iff]
  simp

theorem cto_eq_clo_bitrev {W : Nat} (v : BitVec W) : cto v = clo (bitrev v) :=
  runUp_eq_runDown_bitrev true v le_rfl

theorem ctz_eq_clz_bitrev {W : Nat} (v : BitVec W) : ctz v = clz (bitrev v) :=
  runUp_eq_runDown_bitrev false v le_rfl

theorem ctz_eq_cto_not {W : Nat} (v : BitVec W) : ctz v = cto (~~~v) := by
  rw [ctz_eq_clz_bitrev, cto_eq_clo_bitrev, bitrev_not, clz_eq_clo_not]

theorem cto_ne_zero_iff {W : Nat} (v : BitVec W) (hW : 0 < W) : cto v ≠ 0 ↔ ctz v = 0 := by
  rw [cto_eq_clo_bitrev, ctz_eq_clz_bitrev]
  exact clo_ne_zero_iff (bitrev v) hW

/-- Settles O34: the laws of CLO and CLZ from the runs they count, those of CTO and CTZ by reversing the string. -/
theorem countLaws : Obligations.CountLaws := fun _ v hW =>
  ⟨clz_eq_clo_not v, ctz_eq_cto_not v, clo_ne_zero_iff v hW, cto_ne_zero_iff v hW, ctz_eq_clz_bitrev v, cto_eq_clo_bitrev v⟩

end Sys2Proof.Machine
end

section
/-! The invariant of a run (R28, R49, R204, R230): it holds at every admissible launch, reset being one, every step keeps it, and
a state that meets it has its word to fetch unless the text has ended. So no run from a launch reaches a fetch fault. -/

namespace Sys2Proof.Machine

/-- The addresses the invariant lists are in canonical form. -/
theorem State.Inv.wf_mem {s : State} (h : s.Inv) : Memory.wf s.mem = true :=
  Memory.wf_of_addresses h.endFits.le h.textListed

/-! ### Launch and reset -/

theorem Admissible.inv_launch {base : DWord} {prog : List Word} (h : Admissible base prog) (initGR : Vector DWord 31) :
    (State.launch base prog initGR).Inv where
  baseAligned := h.1
  endFits := h.2
  textListed := textCells_addresses base.toNat prog
  pcAligned := h.1
  pcLow := le_rfl
  pcHigh := Nat.le_add_right _ _

/-- Settles O54: a launch lists the cells of its text and stands at their first address. -/
theorem invariantAtLaunch : Obligations.InvariantAtLaunch := fun _ _ initGR h =>
  ⟨h.inv_launch initGR, (h.inv_launch initGR).wf_mem⟩

/-- Settles O53: reset is the launch of the empty text at an aligned address. -/
theorem invariantAtReset : Obligations.InvariantAtReset := by
  unfold Obligations.InvariantAtReset
  rw [State.reset_eq_launch]
  exact invariantAtLaunch Config.resetBase [] _ ⟨by decide, by decide⟩

/-! ### Steps -/

/-- Completing an instruction that stands in the text keeps the invariant: the advanced pc is at most the end address, so it
does not wrap. -/
theorem State.Inv.complete {s : State} (h : s.Inv) (ht : s.inText) (rd : Reg) (v : DWord) :
    ((s.writeReg rd v).setPc (s.pc + 4)).Inv := by
  have hpc : (s.pc + 4).toNat = s.pc.toNat + 4 := by
    have hlt := h.endFits
    have hhigh := ht.2
    exact BitVec.toNat_add_of_lt (show s.pc.toNat + 4 < 2 ^ 64 by omega)
  constructor <;> simp only [State.setPc_progBase, State.setPc_endAddr, State.setPc_mem, State.setPc_progLen, State.setPc_pc,
    State.writeReg_progBase, State.writeReg_endAddr, State.writeReg_mem, State.writeReg_progLen, hpc]
  case baseAligned => exact h.baseAligned
  case endFits => exact h.endFits
  case textListed => exact h.textListed
  case pcAligned => rw [Nat.add_mod_right, h.pcAligned]
  case pcLow => exact Nat.le_add_right_of_le h.pcLow
  case pcHigh => exact ht.2

theorem State.Inv.step {s t : State} (h : s.Inv) (hs : step s = .next t) : t.Inv := by
  obtain ⟨w, i, hf, -, he⟩ := step_next hs
  obtain ⟨-, -, ht, -⟩ := fetch_ok hf
  obtain ⟨v, rfl⟩ := exec_next he
  exact h.complete ht i.dest v

/-- Settles O55: a step that answers a next state has executed an instruction fetched from within the text. -/
theorem invariantKeptByStep : Obligations.InvariantKeptByStep := fun _ _ h hs =>
  ⟨h.step hs, (h.step hs).wf_mem⟩

/-! ### Runs -/

theorem State.Inv.reaches {k : Nat} {s t : State} (h : s.Inv) (hr : Reaches s k t) : t.Inv := by
  induction k generalizing s with
  | zero => exact reaches_zero.1 hr ▸ h
  | succ k ih =>
    obtain ⟨u, hs, hu⟩ := reaches_succ.1 hr
    exact ih (h.step hs) hu

/-- Before the end of the text the invariant puts the pc in the text: both are multiples of 4. -/
theorem State.Inv.inText {s : State} (h : s.Inv) (he : s.pc.toNat ≠ s.endAddr) : s.inText := by
  have hend : s.endAddr % 4 = 0 := by
    have hbase := h.baseAligned
    unfold State.endAddr
    omega
  have hpc := h.pcAligned
  have hhigh := h.pcHigh
  exact ⟨h.pcLow, by omega⟩

/-- Where the pc is in the text, the four bytes of a word are listed. -/
theorem State.Inv.readWord {s : State} (h : s.Inv) (ht : s.inText) : ∃ w, Memory.readWord s.mem s.pc.toNat = some w := by
  have hbyte : ∀ k, k < 4 → ∃ b, Memory.read s.mem (s.pc.toNat + k) = some b := fun k hk => by
    have hlow := ht.1
    have hhigh : s.pc.toNat + 4 ≤ s.progBase.toNat + 4 * s.progLen := ht.2
    exact Option.isSome_iff_exists.1 ((Memory.read_isSome_of_addresses h.textListed).2 (by omega))
  obtain ⟨b0, h0⟩ := hbyte 0 (by decide)
  obtain ⟨b1, h1⟩ := hbyte 1 (by decide)
  obtain ⟨b2, h2⟩ := hbyte 2 (by decide)
  obtain ⟨b3, h3⟩ := hbyte 3 (by decide)
  rw [Nat.add_zero] at h0
  exact ⟨wordOfBytes b0 b1 b2 b3, by rw [Memory.readWord, h0, h1, h2, h3]⟩

/-- A fetch from a state that meets the invariant answers a word, or the end of the run. -/
theorem State.Inv.fetch_error {s : State} {o : StepOutcome} (h : s.Inv) (hf : fetch s = .error o) : o = .refused (.final s) := by
  rcases Machine.fetch_error hf with ⟨-, ho⟩ | ⟨-, hpc, -⟩ | ⟨he, -, hw, -⟩
  · exact ho
  · exact absurd h.pcAligned hpc
  · have ht := h.inText he
    obtain ⟨w, hword⟩ := h.readWord ht
    rcases hw with hw | hw
    · exact absurd ht hw
    · rw [hword] at hw
      cases hw

/-- The only fault of a step from a state that meets the invariant is the one an instruction raises. -/
theorem State.Inv.step_fault {s : State} {f : Fault} (h : s.Inv) (hs : Machine.step s = .fault f) :
    ∃ w, f = .msbLessThanLsb s.pc w := by
  rcases step_cases s with ⟨o, hf, ho⟩ | ⟨w, e, -, -, ho⟩ | ⟨w, i, -, -, ho⟩
  · rw [h.fetch_error hf, hs] at ho
    cases ho
  · rw [hs] at ho
    cases ho
  · rw [hs] at ho
    rcases exec_cases i s with ⟨v, hv⟩ | hv
    · exact absurd (ho.trans hv).symm (complete_ne_fault i.dest v s f)
    · cases ho.trans hv
      exact ⟨_, rfl⟩

/-- Settles O56: every state a run reaches meets the invariant, and there the fetch finds its word. -/
theorem fetchFaultsUnreachable : Obligations.FetchFaultsUnreachable := by
  intro base prog initGR k s hadm hr a
  have hinv : s.Inv := (hadm.inv_launch initGR).reaches hr
  refine ⟨fun hs => ?_, fun hs => ?_⟩ <;>
  · obtain ⟨w, hw⟩ := hinv.step_fault hs
    cases hw

end Sys2Proof.Machine
end

section
/-! What an instruction's result depends on (R22, R23, R100). Two states give an instruction the same result when it completes
from both with one value; they do when they agree on its sources, and for a word form already when they agree on bits 31..0. -/

namespace Sys2Proof.Machine

/-! ### The bit-string forms: completing exactly when well-formed (R173, R183) -/

theorem exec_bstrinsW (rd rj : Reg) (m l : Fin 32) (s : State) :
    exec (.bstrinsW rd rj m l) s = if (Instr.bstrinsW rd rj m l).wellFormed = true
      then complete rd (sext64 (insertField (lowWord (s.readReg rd)) (lowWord (s.readReg rj)) m.val l.val)) s
      else raise (.msbLessThanLsb s.pc (encode (.bstrinsW rd rj m l))) := by
  simp only [exec, execBstrinsW, Instr.wellFormed, decide_eq_true_eq, ← not_lt, ite_not]

theorem exec_bstrinsD (rd rj : Reg) (m l : Fin 64) (s : State) :
    exec (.bstrinsD rd rj m l) s = if (Instr.bstrinsD rd rj m l).wellFormed = true
      then complete rd (insertField (s.readReg rd) (s.readReg rj) m.val l.val) s
      else raise (.msbLessThanLsb s.pc (encode (.bstrinsD rd rj m l))) := by
  simp only [exec, execBstrinsD, Instr.wellFormed, decide_eq_true_eq, ← not_lt, ite_not]

theorem exec_bstrpickW (rd rj : Reg) (m l : Fin 32) (s : State) :
    exec (.bstrpickW rd rj m l) s = if (Instr.bstrpickW rd rj m l).wellFormed = true
      then complete rd (sext64 (pickField (lowWord (s.readReg rj)) m.val l.val)) s
      else raise (.msbLessThanLsb s.pc (encode (.bstrpickW rd rj m l))) := by
  simp only [exec, execBstrpickW, Instr.wellFormed, decide_eq_true_eq, ← not_lt, ite_not]

theorem exec_bstrpickD (rd rj : Reg) (m l : Fin 64) (s : State) :
    exec (.bstrpickD rd rj m l) s = if (Instr.bstrpickD rd rj m l).wellFormed = true
      then complete rd (pickField (s.readReg rj) m.val l.val) s
      else raise (.msbLessThanLsb s.pc (encode (.bstrpickD rd rj m l))) := by
  simp only [exec, execBstrpickD, Instr.wellFormed, decide_eq_true_eq, ← not_lt, ite_not]

theorem exec_of_not_wellFormed {i : Instr} (hi : i.wellFormed = false) (s : State) :
    exec i s = .fault (.msbLessThanLsb s.pc (encode i)) := by
  have hn : ¬ i.wellFormed = true := by simp [hi]
  cases i
  case bstrinsW => rw [exec_bstrinsW, if_neg hn, raise]
  case bstrinsD => rw [exec_bstrinsD, if_neg hn, raise]
  case bstrpickW => rw [exec_bstrpickW, if_neg hn, raise]
  case bstrpickD => rw [exec_bstrpickD, if_neg hn, raise]
  all_goals cases hi

theorem wellFormed_of_exec_next {i : Instr} {s t : State} (h : exec i s = .next t) : i.wellFormed = true := by
  cases hi : i.wellFormed with
  | true => rfl
  | false =>
    rw [exec_of_not_wellFormed hi] at h
    cases h

/-! ### Equal results -/

/-- The instruction completes from both states, with one value for its destination. -/
def SameResult (i : Instr) (s s' : State) : Prop :=
  ∃ v, exec i s = complete i.dest v s ∧ exec i s' = complete i.dest v s'

/-- What is left in the destination is the result, or 0 in register 0 (R22). -/
theorem SameResult.readReg_dest {i : Instr} {s s' t : State} (h : SameResult i s s') (ht : exec i s = .next t) :
    ∃ t', exec i s' = .next t' ∧ t.readReg i.dest = t'.readReg i.dest := by
  obtain ⟨v, hs, hs'⟩ := h
  obtain ⟨u, hu, hreg, -⟩ := complete_spec i.dest v s
  obtain ⟨u', hu', hreg', -⟩ := complete_spec i.dest v s'
  obtain rfl : t = u := by simpa [hs, hu] using ht.symm
  refine ⟨u', hs'.trans hu', ?_⟩
  rw [hreg, hreg']
  by_cases hd : i.dest = 0 <;> simp [hd]

/-- An instruction computes its value from its sources alone. -/
theorem sameResult_of_sources {i : Instr} {s s' : State} (hi : i.wellFormed = true)
    (h : ∀ r ∈ i.sources, s.readReg r = s'.readReg r) : SameResult i s s' := by
  cases i <;> simp only [Instr.sources, List.forall_mem_cons, List.not_mem_nil, false_imp_iff, implies_true, and_true] at h
  case bstrinsW =>
    exact ⟨_, by rw [exec_bstrinsW, if_pos hi]; rfl, by rw [exec_bstrinsW, if_pos hi, h.1, h.2]; rfl⟩
  case bstrinsD =>
    exact ⟨_, by rw [exec_bstrinsD, if_pos hi]; rfl, by rw [exec_bstrinsD, if_pos hi, h.1, h.2]; rfl⟩
  case bstrpickW =>
    exact ⟨_, by rw [exec_bstrpickW, if_pos hi]; rfl, by rw [exec_bstrpickW, if_pos hi, h]; rfl⟩
  case bstrpickD =>
    exact ⟨_, by rw [exec_bstrpickD, if_pos hi]; rfl, by rw [exec_bstrpickD, if_pos hi, h]; rfl⟩
  case bytepickW | bytepickD | maskeqz | masknez => exact ⟨_, rfl, by rw [h.1, h.2]; rfl⟩
  all_goals exact ⟨_, rfl, by rw [h]; rfl⟩

/-- Settles O42: an instruction that completes is well-formed, and its value is computed from its sources. -/
theorem resultDependsOnSourcesOnly : Obligations.ResultDependsOnSourcesOnly := fun _ _ _ _ h ht =>
  (sameResult_of_sources (wellFormed_of_exec_next ht) h).readReg_dest ht

/-! ### Completion and frame -/

theorem writesOnly_of_complete {rd : Reg} {v : DWord} {s t : State} (h : complete rd v s = .next t) : WritesOnly s t rd v := by
  obtain ⟨u, hu, hreg, hpc, hbase, hlen, hmem⟩ := complete_spec rd v s
  obtain rfl : t = u := by simpa [hu] using h.symm
  exact ⟨hreg, hpc, hbase, hlen, fun a => by rw [hmem]⟩

/-- Settles O40: only a bit-string form with msb < lsb ends otherwise than by completing. -/
theorem everyWellFormedInstructionCompletes : Obligations.EveryWellFormedInstructionCompletes := by
  refine fun i s => ⟨fun hi => ?_, fun hi => exec_of_not_wellFormed hi s⟩
  obtain ⟨v, hv, -⟩ : SameResult i s s := sameResult_of_sources hi fun _ _ => rfl
  exact ⟨_, v, hv, writesOnly_of_complete rfl⟩

/-- Settles O41: the one register an instruction writes is its destination, and a write to register 0 is discarded. -/
theorem zeroRegisterDiscardsWrites : Obligations.ZeroRegisterDiscardsWrites := by
  refine ⟨State.readReg_zero, fun i s hi hd => ?_⟩
  obtain ⟨t, v, ht, hreg, hpc, htext⟩ := (everyWellFormedInstructionCompletes i s).1 hi
  have hnot : ∀ r : Reg, ¬ (r = i.dest ∧ r ≠ 0) := fun r h => h.2 (h.1.trans hd)
  exact ⟨t, ht, fun r => by rw [hreg, if_neg (hnot r)], hpc, htext⟩

/-! ### The word forms (R23) -/

theorem lowWord_eq_setWidth (v : DWord) : lowWord v = v.setWidth 32 := by
  refine BitVec.eq_of_getLsbD_eq fun i hi => ?_
  rw [getLsbD_lowWord, BitVec.getLsbD_setWidth]

/-- A slice of the low word is the same for all values with that low word. -/
theorem extractLsb'_of_lowWord {v w : DWord} (h : lowWord v = lowWord w) {lo len : Nat} (hlen : lo + len ≤ 32) :
    v.extractLsb' lo len = w.extractLsb' lo len := by
  refine BitVec.eq_of_getLsbD_eq fun i hi => ?_
  have hbit := congrArg (fun x : Word => x.getLsbD (lo + i)) h
  simp only [getLsbD_lowWord, show lo + i < 32 by omega, decide_true, Bool.true_and] at hbit
  simp only [BitVec.getLsbD_extractLsb', hbit]

theorem extractLsb_of_lowWord {v w : DWord} (h : lowWord v = lowWord w) {hi : Nat} (hhi : hi < 32) :
    v.extractLsb hi 0 = w.extractLsb hi 0 :=
  extractLsb'_of_lowWord h (by omega)

theorem byteAt_of_lowWord {v w : DWord} (h : lowWord v = lowWord w) {n : Nat} (hn : n < 4) : byteAt v n = byteAt w n :=
  extractLsb'_of_lowWord h (by omega)

theorem bytesReversed_of_lowWord {v w : DWord} (h : lowWord v = lowWord w) : bytesReversed v 0 = bytesReversed w 0 := by
  simp only [bytesReversed, Nat.zero_add, byteAt_of_lowWord h, Nat.reduceLT]

/-- The word forms: those whose operation reads bits 31..0 of its sources (R23). -/
def isWordForm : Instr → Bool
  | .extWB .. | .extWH .. | .cloW .. | .clzW .. | .ctoW .. | .ctzW .. | .bytepickW .. | .revb2H .. | .bitrev4B .. | .bitrevW ..
  | .bstrinsW .. | .bstrpickW .. => true
  | _ => false

/-- A word form computes its value from the low words of its sources: every slice it takes lies in them. -/
theorem sameResult_of_lowWords {i : Instr} {s s' : State} (hw : isWordForm i = true) (hi : i.wellFormed = true)
    (h : ∀ r ∈ i.sources, lowWord (s.readReg r) = lowWord (s'.readReg r)) : SameResult i s s' := by
  cases i <;> simp only [Instr.sources, List.forall_mem_cons, List.not_mem_nil, false_imp_iff, implies_true, and_true] at h
  case extWB => exact ⟨_, rfl, by rw [exec, execExtWB, extractLsb_of_lowWord h.symm (by decide)]; rfl⟩
  case extWH => exact ⟨_, rfl, by rw [exec, execExtWH, extractLsb_of_lowWord h.symm (by decide)]; rfl⟩
  case cloW | clzW | ctoW | ctzW | bitrevW => exact ⟨_, rfl, by rw [h]; rfl⟩
  case bytepickW => exact ⟨_, rfl, by rw [h.1, h.2]; rfl⟩
  case revb2H => exact ⟨_, rfl, by simp only [exec, execRevb2H, bytePair, byteAt_of_lowWord h.symm, Nat.reduceLT]; rfl⟩
  case bitrev4B => exact ⟨_, rfl, by rw [exec, execBitrev4B, bytesReversed_of_lowWord h.symm]; rfl⟩
  case bstrinsW => exact ⟨_, by rw [exec_bstrinsW, if_pos hi]; rfl, by rw [exec_bstrinsW, if_pos hi, h.1, h.2]; rfl⟩
  case bstrpickW => exact ⟨_, by rw [exec_bstrpickW, if_pos hi]; rfl, by rw [exec_bstrpickW, if_pos hi, h]; rfl⟩
  all_goals cases hw

/-- Settles O43: an instruction that completes is well-formed, and a word form's value is computed from low words. -/
theorem wordFormsIgnoreUpperHalves : Obligations.WordFormsIgnoreUpperHalves := by
  intro rd rj rk sa2 msbw lsbw i hmem s s' t h ht
  have hw : isWordForm i = true := List.all_eq_true.1 (by rfl) i hmem
  simp only [← lowWord_eq_setWidth] at h
  exact (sameResult_of_lowWords hw (wellFormed_of_exec_next ht) h).readReg_dest ht

end Sys2Proof.Machine
end

section
/-! Memory, the launch and the fetch (R42, R43, R49, R231). A launch places its text byte by byte and nothing beside it; no step
changes the text, so every fetch of a run reads the word the launch placed. -/

namespace Sys2Proof.Machine

/-! ### The launch state (R231) -/

/-- The bytes of a placed text are those of its words, lowest byte first (R42). -/
theorem Memory.read_textCells (a : Nat) (prog : List Word) {i k : Nat} (hi : i < prog.length) (hk : k < 4) :
    Memory.read (textCells a prog) (a + 4 * i + k) = some (byteOfWord prog[i] k) := by
  induction prog generalizing a i with
  | nil => exact absurd hi (Nat.not_lt_zero i)
  | cons w ws ih =>
    rw [textCells, Memory.read_wordCells_append]
    cases i with
    | zero =>
      match k, hk with
      | 0, _ | 1, _ | 2, _ | 3, _ => simp
    | succ i =>
      have hrest : a + 4 * (i + 1) + k = a + 4 + 4 * i + k := by omega
      rw [if_neg (by omega), if_neg (by omega), if_neg (by omega), if_neg (by omega), hrest, List.getElem_cons_succ]
      exact ih (a + 4) (Nat.lt_of_succ_lt_succ hi)

theorem Memory.read_textCells_outside {a x : Nat} {prog : List Word} (h : x < a ∨ a + 4 * prog.length ≤ x) :
    Memory.read (textCells a prog) x = none := by
  rw [← Option.not_isSome_iff_eq_none, Memory.read_isSome_of_addresses (textCells_addresses a prog)]
  omega

/-- Register n + 1 is entry n of the register file: register 0 has no storage (R21, R30). -/
theorem State.readReg_succ (s : State) (n : Fin 31) : s.readReg n.succ = s.gr.get n := by
  simp [State.readReg]

/-- Settles O52: the launch copies its arguments into the state, and memory lists the cells of the text alone. -/
theorem launchPlacesTextAndRegisters : Obligations.LaunchPlacesTextAndRegisters := fun base prog _ =>
  ⟨rfl, rfl, rfl, State.readReg_zero _, State.readReg_succ _, fun _ _ hi hk => Memory.read_textCells base.toNat prog hi hk,
    fun _ h => Memory.read_textCells_outside h⟩

/-! ### The text in a run (R49) -/

theorem SameText.refl (s : State) : SameText s s := ⟨rfl, rfl, fun _ => rfl⟩

theorem SameText.trans {s t u : State} (hst : SameText s t) (htu : SameText t u) : SameText s u := by
  obtain ⟨hbase, hlen, hmem⟩ := hst
  obtain ⟨hbase', hlen', hmem'⟩ := htu
  exact ⟨hbase'.trans hbase, hlen'.trans hlen, fun a => (hmem' a).trans (hmem a)⟩

theorem SameText.endAddr {s t : State} (h : SameText s t) : t.endAddr = s.endAddr := by
  obtain ⟨hbase, hlen, -⟩ := h
  rw [State.endAddr, hbase, hlen, State.endAddr]

theorem SameText.readWord {s t : State} (h : SameText s t) (a : Nat) : Memory.readWord t.mem a = Memory.readWord s.mem a := by
  obtain ⟨-, -, hmem⟩ := h
  simp only [Memory.readWord, hmem]

/-- A step that answers a next state has executed an instruction, which writes a register and the pc. -/
theorem sameText_of_step {s t : State} (h : step s = .next t) : SameText s t := by
  obtain ⟨_, i, -, -, he⟩ := step_next h
  obtain ⟨v, rfl⟩ := exec_next he
  exact ⟨by simp, by simp, fun a => by simp⟩

theorem sameText_of_reaches {k : Nat} {s t : State} (h : Reaches s k t) : SameText s t := by
  induction k generalizing s with
  | zero => exact reaches_zero.1 h ▸ SameText.refl s
  | succ k ih =>
    obtain ⟨u, hs, hu⟩ := reaches_succ.1 h
    exact (sameText_of_step hs).trans (ih hu)

/-- An aligned pc at or above the base is the address of a word of the text. -/
theorem State.Inv.pc_eq {s : State} (h : s.Inv) :
    s.pc.toNat = s.progBase.toNat + 4 * ((s.pc.toNat - s.progBase.toNat) / 4) := by
  have hbase := h.baseAligned
  have hpc := h.pcAligned
  have hlow := h.pcLow
  omega

/-- Settles O57: the invariant keeps the pc at a word of the text, and that word reads as at the launch. -/
theorem fetchReturnsThePlacedWord : Obligations.FetchReturnsThePlacedWord := by
  intro base prog initGR k s hadm hr
  have htext : SameText (State.launch base prog initGR) s := sameText_of_reaches hr
  have hinv : s.Inv := (hadm.inv_launch initGR).reaches hr
  refine ⟨htext, fun hend => ?_⟩
  have hin : s.inText := hinv.inText fun he => hend (he.trans htext.endAddr)
  obtain ⟨w, hw⟩ := hinv.readWord hin
  have hbase : s.progBase = base := htext.1
  have hplaced : prog[(s.pc.toNat - base.toNat) / 4]? = some w := by
    calc prog[(s.pc.toNat - base.toNat) / 4]?
        = Memory.readWord (textCells base.toNat prog) (base.toNat + 4 * ((s.pc.toNat - base.toNat) / 4)) :=
          (Memory.readWord_textCells base.toNat prog _).symm
      _ = Memory.readWord (textCells base.toNat prog) s.pc.toNat := by rw [← hbase, ← hinv.pc_eq]
      _ = some w := (htext.readWord s.pc.toNat).symm.trans hw
  exact ⟨w, hplaced, fetch_of_word hinv.pcAligned hin hw⟩

/-! ### The step at a word of the text (R43, R64, R208) -/

theorem decodeWord_of_decodeBytes {b0 b1 b2 b3 : Byte} {rest rest' : List Byte} {i : Instr}
    (h : decodeBytes (b0 :: b1 :: b2 :: b3 :: rest) = .ok (i, rest')) : decodeWord (wordOfBytes b0 b1 b2 b3) = .ok i := by
  cases hd : decodeWord (wordOfBytes b0 b1 b2 b3) with
  | ok j =>
    rw [decodeBytes_append hd] at h
    cases h
    rfl
  | error e => simp [decodeBytes, hd] at h

/-- Settles O49: the fetch assembles the four bytes to the word that the decoder reads. -/
theorem stepRunsTheDecodedInstruction : Obligations.StepRunsTheDecodedInstruction := by
  intro s b0 b1 b2 b3 i halign hlow hhigh h0 h1 h2 h3 hdec
  have hword : Memory.readWord s.mem s.pc.toNat = some (wordOfBytes b0 b1 b2 b3) := by
    rw [Memory.readWord, h0, h1, h2, h3]
  exact step_of_decode_ok (fetch_of_word halign ⟨hlow, hhigh⟩ hword) (decodeWord_of_decodeBytes hdec)

end Sys2Proof.Machine
end

section
/-! Encoding and decoding are inverse to each other (R64, R66, R67, R68 (d)). An encoded word fits the row of its instruction and
holds the operands in the row's fields; a word that fits a row is made of the row's pattern and the fields its term reads, so
that the encoder gives it back; and the word lies between its row's pattern and that pattern with every field at its highest. -/

namespace Sys2Proof

/-! ### An operand in its field (R62, R63, R67) -/

section
variable {lo len : Nat}

/-- The bits of an operand put in the field of `len` bits from bit `lo` up. -/
theorem getLsbD_shift_field (a : Fin (2 ^ len)) (h : lo + len ≤ 32) (i : Nat) :
    (BitVec.ofNat 32 a.val <<< lo : Word).getLsbD i = (decide (lo ≤ i ∧ i < lo + len) && a.val.testBit (i - lo)) := by
  have hhigh : len ≤ i - lo → a.val.testBit (i - lo) = false := fun hi =>
    Nat.testBit_lt_two_pow (a.isLt.trans_le (Nat.pow_le_pow_right (by decide) hi))
  rw [BitVec.getLsbD_shiftLeft, BitVec.getLsbD_ofNat]
  by_cases hi : lo ≤ i ∧ i < lo + len
  · simp [hi, show i < 32 by omega, show i - lo < 32 by omega, show ¬ i < lo by omega]
  · by_cases hlo : i < lo
    · simp [hlo, hi]
    · simp [hi, hhigh (by omega)]

theorem fieldAt_shift_field (a : Fin (2 ^ len)) (h : lo + len ≤ 32) :
    fieldAt lo len (BitVec.ofNat 32 a.val <<< lo) = a := by
  have hbits : (BitVec.ofNat 32 a.val <<< lo : Word).extractLsb' lo len = BitVec.ofFin a := by
    refine BitVec.eq_of_getLsbD_eq fun i hi => ?_
    rw [BitVec.getLsbD_extractLsb', getLsbD_shift_field a h, BitVec.getLsbD_ofFin]
    simp [hi]
  rw [fieldAt, hbits]

theorem shift_field_outside {lo' len' : Nat} (a : Fin (2 ^ len)) (h : lo + len ≤ 32) (hout : lo' + len' ≤ lo ∨ lo + len ≤ lo') :
    (BitVec.ofNat 32 a.val <<< lo : Word).extractLsb' lo' len' = 0 := by
  refine BitVec.eq_of_getLsbD_eq fun i hi => ?_
  rw [BitVec.getLsbD_extractLsb', getLsbD_shift_field a h]
  simp [show ¬ (lo ≤ lo' + i ∧ lo' + i < lo + len) by omega]

theorem shift_field_and_mask {m : Word} (a : Fin (2 ^ len)) (h : lo + len ≤ 32) (hm : m.extractLsb' lo len = 0) :
    BitVec.ofNat 32 a.val <<< lo &&& m = 0 := by
  refine BitVec.eq_of_getLsbD_eq fun i hi => ?_
  rw [BitVec.getLsbD_and, getLsbD_shift_field a h]
  by_cases hin : lo ≤ i ∧ i < lo + len
  · have hbit := congrArg (fun x => x.getLsbD (i - lo)) hm
    simp only [BitVec.getLsbD_extractLsb', Nat.add_sub_cancel' hin.1, show i - lo < len by omega] at hbit
    simpa using fun _ _ _ => hbit
  · simp [hin]

/-- A field of a word, put back in its place. -/
theorem fieldAt_in_place (w : Word) (h : lo + len ≤ 32) :
    BitVec.ofNat 32 (fieldAt lo len w).val <<< lo = w &&& (BitVec.ofNat 32 (2 ^ len - 1) <<< lo) := by
  refine BitVec.eq_of_getLsbD_eq fun i hi => ?_
  have hones : 2 ^ len - 1 < 2 ^ len := Nat.sub_lt (Nat.two_pow_pos len) (by decide)
  rw [getLsbD_shift_field _ h, BitVec.getLsbD_and, getLsbD_shift_field ⟨2 ^ len - 1, hones⟩ h]
  by_cases hin : lo ≤ i ∧ i < lo + len
  · have hbit : (fieldAt lo len w).val.testBit (i - lo) = w.getLsbD i := by
      change (w.extractLsb' lo len).getLsbD (i - lo) = w.getLsbD i
      simp [Nat.add_sub_cancel' hin.1, show i - lo < len by omega]
    simp [hin, hbit, Nat.testBit_two_pow_sub_one, show i - lo < len by omega]
  · simp [hin]

end

/-! ### The decoder reads an encoded word (R64, R67): one lemma per format of R61, for every row of the format -/

/-- A pattern has no bit where its row's mask has none. -/
theorem opcodeTable_pattern_and_mask : ∀ r ∈ opcodeTable, r.pattern &&& r.mask = r.pattern := by decide

/-- So it has zeros in the fields of the row's format. -/
theorem pattern_field_zero {p m : Word} {lo len : Nat} (hp : p &&& m = p) (hm : m.extractLsb' lo len = 0) :
    p.extractLsb' lo len = 0 := by
  rw [← hp, BitVec.extractLsb'_and, hm]
  exact BitVec.and_zero

section
variable {k : Nat} {name : String} {p m : Word}

theorem decodeWord_encode2R {op : Reg → Reg → Instr} (hrow : opcodeTable[k]? = some (row2R name p op)) (rd rj : Reg) :
    decodeWord (encode2R p rd rj) = .ok (op rd rj) := by
  have hmask : p &&& 0xFFFFFC00 = p := opcodeTable_pattern_and_mask _ (List.mem_of_getElem? hrow)
  obtain ⟨hd, hj⟩ := encode2R_fields (pattern_field_zero hmask (by decide)) rd rj
  simpa only [row2R, hd, hj] using decodeWord_of_row hrow (encode2R_fits hmask rd rj)

theorem decodeWord_encode3R {op : Reg → Reg → Reg → Instr}
    (hrow : opcodeTable[k]? = some ⟨name, 0xFFFF8000, p, fun w => op (rdOf w) (rjOf w) (rkOf w)⟩)
    (rd rj rk : Reg) : decodeWord (encode3R p rd rj rk 0) = .ok (op rd rj rk) := by
  have hmask : p &&& 0xFFFF8000 = p := opcodeTable_pattern_and_mask _ (List.mem_of_getElem? hrow)
  obtain ⟨hd, hj, hk, -⟩ := encode3R_fields (sa := 0) (pattern_field_zero hmask (by decide)) (by decide) rd rj rk
  simpa only [hd, hj, hk] using decodeWord_of_row hrow (encode3R_fits (sa := 0) hmask (by decide) (by decide) rd rj rk)

/-- Formats 3R_SA2 and 3R_SA3: a shift amount of `len` bits. -/
theorem decodeWord_encode3R_sa {len : Nat} {op : Reg → Reg → Reg → Fin (2 ^ len) → Instr}
    (hrow : opcodeTable[k]? = some ⟨name, m, p, fun w => op (rdOf w) (rjOf w) (rkOf w) (fieldAt 15 len w)⟩)
    (hlen : 15 + len ≤ 32) (hregs : m &&& 0x7FFF = 0) (hm : m.extractLsb' 0 (15 + len) = 0) (rd rj rk : Reg)
    (sa : Fin (2 ^ len)) : decodeWord (encode3R p rd rj rk sa.val) = .ok (op rd rj rk sa) := by
  have hp : p &&& m = p := opcodeTable_pattern_and_mask _ (List.mem_of_getElem? hrow)
  have hfree : ∀ lo n, lo + n ≤ 15 + len → m.extractLsb' lo n = 0 := fun lo n h =>
    extractLsb'_zero_of_wider hm (Nat.zero_le lo) (by omega)
  obtain ⟨hd, hj, hk, hsa⟩ := encode3R_fields (pattern_field_zero hp (hfree 0 15 (by omega)))
    (shift_field_outside sa hlen (.inl le_rfl)) rd rj rk
  have hfield := (hsa len (pattern_field_zero hp (hfree 15 len le_rfl)) (by omega)).trans (fieldAt_shift_field sa hlen)
  have hfits := encode3R_fits hp (shift_field_and_mask sa hlen (hfree 15 len le_rfl)) hregs rd rj rk
  simpa only [hd, hj, hk, hfield] using decodeWord_of_row hrow hfits

/-- Formats 2R_MSBW_LSBW and 2R_MSBD_LSBD: two positions of `len` bits. -/
theorem decodeWord_encodeMsbLsb {len : Nat} {op : Reg → Reg → Fin (2 ^ len) → Fin (2 ^ len) → Instr}
    (hrow : opcodeTable[k]? = some ⟨name, m, p, fun w => op (rdOf w) (rjOf w) (fieldAt 16 len w) (fieldAt 10 len w)⟩)
    (hlen : len ≤ 6) (hregs : m &&& 0x3FF = 0) (hlow : m.extractLsb' 0 (10 + len) = 0) (hhigh : m.extractLsb' 16 len = 0)
    (rd rj : Reg) (msb lsb : Fin (2 ^ len)) : decodeWord (encodeMsbLsb p rd rj msb.val lsb.val) = .ok (op rd rj msb lsb) := by
  have hp : p &&& m = p := opcodeTable_pattern_and_mask _ (List.mem_of_getElem? hrow)
  have hlsb : m.extractLsb' 10 len = 0 := extractLsb'_zero_of_wider hlow (by omega) (by omega)
  have h16 : 16 + len ≤ 32 := by omega
  have h10 : 10 + len ≤ 32 := by omega
  obtain ⟨hd, hj, hmsb', hlsb'⟩ := encodeMsbLsb_fields
    (pattern_field_zero hp (extractLsb'_zero_of_wider hlow (by omega) (by omega))) (shift_field_outside msb h16 (.inl le_rfl))
    (shift_field_outside lsb h10 (.inl le_rfl)) (shift_field_outside lsb h10 (.inr (by omega))) hlen rd rj
  have hm := (hmsb' (pattern_field_zero hp hhigh)).trans (fieldAt_shift_field msb h16)
  have hl := (hlsb' (pattern_field_zero hp hlsb)).trans (fieldAt_shift_field lsb h10)
  have hfits := encodeMsbLsb_fits hp (shift_field_and_mask msb h16 hhigh) (shift_field_and_mask lsb h10 hlsb) hregs rd rj
  simpa only [hd, hj, hm, hl] using decodeWord_of_row hrow hfits

end

/-- R67: each instruction, through the lemma of its format at the place `k` of its row in the table. -/
theorem decodeWord_encode (i : Instr) : decodeWord (encode i) = .ok i := by
  cases i with
  | extWB => exact decodeWord_encode2R (k := 0) rfl ..
  | extWH => exact decodeWord_encode2R (k := 1) rfl ..
  | cloW => exact decodeWord_encode2R (k := 2) rfl ..
  | clzW => exact decodeWord_encode2R (k := 3) rfl ..
  | ctoW => exact decodeWord_encode2R (k := 4) rfl ..
  | ctzW => exact decodeWord_encode2R (k := 5) rfl ..
  | cloD => exact decodeWord_encode2R (k := 6) rfl ..
  | clzD => exact decodeWord_encode2R (k := 7) rfl ..
  | ctoD => exact decodeWord_encode2R (k := 8) rfl ..
  | ctzD => exact decodeWord_encode2R (k := 9) rfl ..
  | bytepickW => exact decodeWord_encode3R_sa (k := 10) (len := 2) rfl (by decide) rfl rfl ..
  | bytepickD => exact decodeWord_encode3R_sa (k := 11) (len := 3) rfl (by decide) rfl rfl ..
  | revb2H => exact decodeWord_encode2R (k := 12) rfl ..
  | revb4H => exact decodeWord_encode2R (k := 13) rfl ..
  | revb2W => exact decodeWord_encode2R (k := 14) rfl ..
  | revbD => exact decodeWord_encode2R (k := 15) rfl ..
  | revh2W => exact decodeWord_encode2R (k := 16) rfl ..
  | revhD => exact decodeWord_encode2R (k := 17) rfl ..
  | bitrev4B => exact decodeWord_encode2R (k := 18) rfl ..
  | bitrev8B => exact decodeWord_encode2R (k := 19) rfl ..
  | bitrevW => exact decodeWord_encode2R (k := 20) rfl ..
  | bitrevD => exact decodeWord_encode2R (k := 21) rfl ..
  | bstrinsW => exact decodeWord_encodeMsbLsb (k := 22) (len := 5) rfl (by decide) rfl rfl rfl ..
  | bstrinsD => exact decodeWord_encodeMsbLsb (k := 23) (len := 6) rfl (by decide) rfl rfl rfl ..
  | bstrpickW => exact decodeWord_encodeMsbLsb (k := 24) (len := 5) rfl (by decide) rfl rfl rfl ..
  | bstrpickD => exact decodeWord_encodeMsbLsb (k := 25) (len := 6) rfl (by decide) rfl rfl rfl ..
  | maskeqz => exact decodeWord_encode3R (k := 26) rfl ..
  | masknez => exact decodeWord_encode3R (k := 27) rfl ..

/-- Settles O44: the encoded word fits its row with the operands in the fields, and its bytes assemble to it again. -/
theorem decodeOfEncode : Obligations.DecodeOfEncode := fun i rest => by
  refine ⟨decodeWord_encode i, decodeBytes_append ?_⟩
  rw [Machine.wordOfBytes_byteOfWord]
  exact decodeWord_encode i

/-! ### The encoder gives back a word that fits a row (R67, R68 (d)): one lemma per encoding of R61 -/

section
variable {p w : Word}

theorem rdOf_in_place (w : Word) : BitVec.ofNat 32 (rdOf w).val = w &&& 0x1F := by
  have h := fieldAt_in_place (lo := 0) (len := 5) w (by decide)
  rwa [BitVec.shiftLeft_zero] at h

theorem rjOf_in_place (w : Word) : BitVec.ofNat 32 (rjOf w).val <<< 5 = w &&& 0x3E0 :=
  fieldAt_in_place (len := 5) w (by decide)

theorem encode2R_of_fields (hw : w &&& 0xFFFFFC00 = p) : encode2R p (rdOf w) (rjOf w) = w := by
  rw [encode2R, rdOf_in_place, rjOf_in_place, ← hw, ← BitVec.and_or_distrib_left, ← BitVec.and_or_distrib_left]
  exact BitVec.and_allOnes

/-- Formats 3R, 3R_SA2 and 3R_SA3: a mask and a shift amount of `len` bits that share out bits 31..15. -/
theorem encode3R_of_fields {m : Word} {len : Nat} (hlen : 15 + len ≤ 32)
    (hm : m ||| BitVec.ofNat 32 (2 ^ len - 1) <<< 15 = 0xFFFF8000) (hw : w &&& m = p) :
    encode3R p (rdOf w) (rjOf w) (rkOf w) (fieldAt 15 len w).val = w := by
  have hk : BitVec.ofNat 32 (rkOf w).val <<< 10 = w &&& 0x7C00 := fieldAt_in_place (len := 5) w (by decide)
  rw [encode3R, rdOf_in_place, rjOf_in_place, hk, fieldAt_in_place w hlen, ← hw]
  simp only [← BitVec.and_or_distrib_left, hm]
  exact BitVec.and_allOnes

/-- Format 3R: a shift amount of no bits is 0. -/
theorem encode3R_of_fields_without_sa (hw : w &&& 0xFFFF8000 = p) : encode3R p (rdOf w) (rjOf w) (rkOf w) 0 = w := by
  have h := encode3R_of_fields (len := 0) (by decide) rfl hw
  rwa [Nat.lt_one_iff.1 (fieldAt 15 0 w).isLt] at h

/-- Formats 2R_MSBW_LSBW and 2R_MSBD_LSBD: a mask and two positions of `len` bits that share out bits 31..10. -/
theorem encodeMsbLsb_of_fields {m : Word} {len : Nat} (hlen : 16 + len ≤ 32)
    (hm : m ||| BitVec.ofNat 32 (2 ^ len - 1) <<< 16 ||| BitVec.ofNat 32 (2 ^ len - 1) <<< 10 = 0xFFFFFC00) (hw : w &&& m = p) :
    encodeMsbLsb p (rdOf w) (rjOf w) (fieldAt 16 len w).val (fieldAt 10 len w).val = w := by
  rw [encodeMsbLsb, rdOf_in_place, rjOf_in_place, fieldAt_in_place w hlen, fieldAt_in_place w (by omega), ← hw]
  simp only [← BitVec.and_or_distrib_left, hm]
  exact BitVec.and_allOnes

end

/-- The encoder undoes the term that a row builds from a word. -/
theorem encode_build {r : Row} (hr : r ∈ opcodeTable) {w : Word} (hf : r.fits w = true) : encode (r.build w) = w := by
  rw [Row.fits_iff] at hf
  simp only [opcodeTable, List.mem_append] at hr
  rcases hr with (((hr | hr) | hr) | hr) | hr
  · fin_cases hr <;> exact encode2R_of_fields hf
  · fin_cases hr
    · exact encode3R_of_fields (len := 2) (by decide) rfl hf
    · exact encode3R_of_fields (len := 3) (by decide) rfl hf
  · fin_cases hr <;> exact encode2R_of_fields hf
  · fin_cases hr
    · exact encodeMsbLsb_of_fields (len := 5) (by decide) rfl hf
    · exact encodeMsbLsb_of_fields (len := 6) (by decide) rfl hf
    · exact encodeMsbLsb_of_fields (len := 5) (by decide) rfl hf
    · exact encodeMsbLsb_of_fields (len := 6) (by decide) rfl hf
  · fin_cases hr <;> exact encode3R_of_fields_without_sa hf

/-- Settles O45: the decoder answers the term of a row that fits. -/
theorem encodeOfDecode : Obligations.EncodeOfDecode := fun w i h => by
  obtain ⟨r, hr, hf, rfl⟩ := decodeWord_ok h
  exact encode_build hr hf

/-! ### Rows as ranges of words (R66) -/

section
variable {r : Row} {w : Word}

/-- The row that fits a word is the one the decoder finds. -/
theorem Row.eq_of_fits {q : Row} (hr : r ∈ opcodeTable) (hq : q ∈ opcodeTable) (hfr : r.fits w = true) (hfq : q.fits w = true) :
    r = q :=
  Option.some.inj ((find_of_fits opcodeTable_disjoint hr hfr).symm.trans (find_of_fits opcodeTable_disjoint hq hfq))

/-- A field that the mask covers is the pattern's. -/
theorem Row.extractLsb'_of_fits (hf : r.fits w = true) {lo len : Nat} (hm : r.mask.extractLsb' lo len = BitVec.allOnes len) :
    w.extractLsb' lo len = r.pattern.extractLsb' lo len := by
  rw [← (r.fits_iff w).1 hf, BitVec.extractLsb'_and, hm, BitVec.and_allOnes]

/-- A word that fits lies between the pattern with every operand bit 0 and with every operand bit 1. -/
theorem Row.range_of_fits (hf : r.fits w = true) {a b : Nat} (ha : a ≤ r.pattern.toNat)
    (hb : (r.pattern ||| ~~~r.mask).toNat ≤ b) : a ≤ w.toNat ∧ w.toNat ≤ b := by
  have hw := (r.fits_iff w).1 hf
  have hlow : r.pattern.toNat ≤ w.toNat := by
    rw [← hw, BitVec.toNat_and]
    exact Nat.and_le_left
  have hhigh : w.toNat ≤ (r.pattern ||| ~~~r.mask).toNat := by
    have hor : r.pattern ||| ~~~r.mask = w ||| ~~~r.mask := by
      rw [← hw]
      ext i hi
      cases hm : r.mask[i] <;> simp [hm]
    rw [hor, BitVec.toNat_or]
    exact Nat.left_le_or
  exact ⟨ha.trans hlow, hhigh.trans hb⟩

theorem Row.getLsbD_of_fits (hf : r.fits w = true) {i : Nat} (hm : r.mask.getLsbD i = true) :
    w.getLsbD i = r.pattern.getLsbD i := by
  rw [← (r.fits_iff w).1 hf, BitVec.getLsbD_and, hm, Bool.and_true]

end

/-- The rows of format 2R differ in bits 14..10. -/
theorem mnemonic_of_bits_14_10 : ∀ r ∈ opcodeTable, ∀ q ∈ opcodeTable, r.mask = 0xFFFFFC00 → q.mask = 0xFFFFFC00 →
    r.pattern.extractLsb' 10 5 = q.pattern.extractLsb' 10 5 → r.mnemonic = q.mnemonic := by decide

/-- Every row fixes bits 31..24 as zeros. -/
theorem opcodeTable_top_byte : ∀ r ∈ opcodeTable,
    r.mask.extractLsb' 24 8 = BitVec.allOnes 8 ∧ r.pattern.extractLsb' 24 8 = 0 := by decide

/-- The rows of format 2R end below 0x6000. -/
theorem rows2R_below : ∀ r ∈ rowsExtCount ++ rowsReverse, (r.pattern ||| ~~~r.mask).toNat ≤ 0x5FFF := by decide

/-- Settles O46: only one row fits a word; the mask of a row covers bits 31..24, of a 2R row bits 14..10 and of the word forms of
BSTRINS and BSTRPICK bit 15; and a row's words lie between its pattern and that pattern with all operand bits 1. -/
theorem rowsAreDisjointRanges : Obligations.RowsAreDisjointRanges := by
  refine ⟨fun w r q hr hq hfr hfq => by rw [Row.eq_of_fits hr hq hfr hfq], ?_, ?_⟩
  · intro r q w x hr hq hmr hmq hfr hfq hbits
    rw [Row.extractLsb'_of_fits hfr (by rw [hmr]; rfl), Row.extractLsb'_of_fits hfq (by rw [hmq]; rfl)] at hbits
    exact mnemonic_of_bits_14_10 r hr q hq hmr hmq hbits
  · intro w i h
    obtain ⟨r, hr, hf, rfl⟩ := decodeWord_ok h
    obtain ⟨hmask, hpattern⟩ := opcodeTable_top_byte r hr
    refine ⟨(Row.extractLsb'_of_fits hf hmask).trans hpattern, ?_⟩
    have below : r ∈ rowsExtCount ++ rowsReverse → w.toNat < 0x6000 := fun hr =>
      Nat.lt_succ_of_le (Row.range_of_fits hf (Nat.zero_le _) (rows2R_below r hr)).2
    simp only [opcodeTable, List.mem_append] at hr
    rcases hr with (((hr | hr) | hr) | hr) | hr
    · have hlt := below (List.mem_append_left _ hr)
      fin_cases hr <;> exact hlt
    · fin_cases hr
      · exact Row.range_of_fits hf (by decide) (by decide)
      · exact Row.range_of_fits hf (by decide) (by decide)
    · have hlt := below (List.mem_append_right _ hr)
      fin_cases hr <;> exact hlt
    · fin_cases hr
      · obtain ⟨hlo, hhi⟩ := Row.range_of_fits (a := 0x600000) (b := 0x7FFFFF) hf (by decide) (by decide)
        exact ⟨hlo, hhi, Row.getLsbD_of_fits hf rfl⟩
      · exact Row.range_of_fits hf (by decide) (by decide)
      · obtain ⟨hlo, hhi⟩ := Row.range_of_fits (a := 0x600000) (b := 0x7FFFFF) hf (by decide) (by decide)
        exact ⟨hlo, hhi, Row.getLsbD_of_fits hf rfl⟩
      · exact Row.range_of_fits hf (by decide) (by decide)
    · fin_cases hr
      · exact Row.range_of_fits hf (by decide) (by decide)
      · exact Row.range_of_fits hf (by decide) (by decide)

end Sys2Proof
end

section
/-! The assembler and the lines of the 28 instructions (R67, R69): the line of an instruction is read as the instruction, and a
form accepts no other operand lists than the operands of its instructions, each in its range. -/

namespace Sys2Proof

open Laws.AsmRoundTrip (read2R read3R readSa readMsbLsb)

theorem assemble_disassemble (i : Instr) : assemble (disassemble i) = .ok i := by
  cases i
  case bytepickW | bytepickD => exact readSa rfl ..
  case bstrinsW | bstrinsD | bstrpickW | bstrpickD => exact readMsbLsb rfl ..
  case maskeqz | masknez => exact read3R rfl ..
  all_goals exact read2R rfl ..

/-! ### What a form accepts -/

theorem inRange_eq_some_iff {range n : Nat} {a : Fin range} : inRange range n = some a ↔ n = a.val := by
  unfold inRange
  split
  · simp [Fin.ext_iff]
  · have := a.isLt
    simp
    omega

/-- The operand lists that a form has an instruction for. -/
inductive AsmForm.Accepts : AsmForm → List AsmOperand → Instr → Prop where
  | rdRj (op : Reg → Reg → Instr) (rd rj : Reg) : Accepts (.rdRj op) [.reg rd.val, .reg rj.val] (op rd rj)
  | rdRjRk (op : Reg → Reg → Reg → Instr) (rd rj rk : Reg) :
    Accepts (.rdRjRk op) [.reg rd.val, .reg rj.val, .reg rk.val] (op rd rj rk)
  | rdRjRkSa (range : Nat) (op : Reg → Reg → Reg → Fin range → Instr) (rd rj rk : Reg) (sa : Fin range) :
    Accepts (.rdRjRkSa range op) [.reg rd.val, .reg rj.val, .reg rk.val, .imm sa.val] (op rd rj rk sa)
  | rdRjMsbLsb (range : Nat) (op : Reg → Reg → Fin range → Fin range → Instr) (rd rj : Reg) (msb lsb : Fin range) :
    Accepts (.rdRjMsbLsb range op) [.reg rd.val, .reg rj.val, .imm msb.val, .imm lsb.val] (op rd rj msb lsb)

theorem AsmForm.accepts_of_read {f : AsmForm} {os : List AsmOperand} {i : Instr} (h : f.read os = .ok i) : f.Accepts os i := by
  unfold AsmForm.read at h
  split at h
  case h_5 => cases h
  all_goals
    split at h <;> cases h
    simp only [inRange_eq_some_iff] at *
    subst_vars
    constructor

/-- An instruction that a format line's form has for an operand list has that line. -/
theorem line_of_accepts {m : String} {f : AsmForm} {os : List AsmOperand} {i : Instr} (hmem : (m, f) ∈ asmForms)
    (h : f.Accepts os i) : (⟨m, os⟩ : AsmLine) = disassemble i := by
  simp only [asmForms, List.mem_append] at hmem
  rcases hmem with (hmem | hmem) | hmem <;> fin_cases hmem <;> cases h <;> rfl

theorem assemble_eq_ok {l : AsmLine} {i : Instr} (h : assemble l = .ok i) :
    ∃ f, (l.mnemonic, f) ∈ asmForms ∧ f.read l.operands = .ok i := by
  unfold assemble at h
  split at h
  · rename_i f hf
    obtain ⟨_, _, hforms, -⟩ := List.lookup_eq_some_iff.1 hf
    exact ⟨f, by simp [hforms], h⟩
  · cases h

/-- Settles O48: a line is assembled by the form its mnemonic names, which accepts the operands of its instructions only. -/
theorem assemblerAcceptsExactlyTheLines : Obligations.AssemblerAcceptsExactlyTheLines := by
  refine fun l i => ⟨fun h => ?_, fun h => h ▸ assemble_disassemble i⟩
  obtain ⟨f, hmem, hread⟩ := assemble_eq_ok h
  exact line_of_accepts hmem (AsmForm.accepts_of_read hread)

end Sys2Proof
end

section
/-! The text of a line is read back as the line (R69): an operand's text has neither a comma nor white space and reads as the
operand, so the commas of the operands' text separate just the operands, and the first blank ends the mnemonic. -/

namespace Sys2Proof

/-! ### Decimal numbers -/

theorem digitValue_of_isDigit {c : Char} (h : c.isDigit = true) : digitValue 10 c = some (c.toNat - '0'.toNat) := by
  obtain ⟨hlo, hhi⟩ := Char.isDigit_iff_toNat.1 h
  have hc : '0' ≤ c ∧ c ≤ '9' := ⟨hlo, hhi⟩
  have hlt : c.toNat - '0'.toNat < 10 := Nat.sub_lt_left_of_lt_add hlo (Nat.lt_succ_of_le hhi)
  rw [digitValue, if_pos hc]
  exact if_pos hlt

theorem foldlM_digitValue {ds : List Char} (h : ∀ c ∈ ds, c.isDigit = true) (n : Nat) :
    ds.foldlM (fun n d => (digitValue 10 d).map (fun v => 10 * n + v)) n = some (Nat.ofDigitChars 10 ds n) := by
  induction ds generalizing n with
  | nil => rfl
  | cons c ds ih =>
    obtain ⟨hc, hds⟩ := List.forall_mem_cons.1 h
    rw [List.foldlM_cons, digitValue_of_isDigit hc, Nat.ofDigitChars_cons]
    exact ih hds _

theorem isDigit_of_mem_decimal {n : Nat} : ∀ c ∈ Nat.toDigits 10 n, c.isDigit = true := fun _ hc =>
  Nat.isDigit_of_mem_toDigits (by decide) (by decide) hc

theorem readDigits_decimal (n : Nat) : readDigits 10 (Nat.toDigits 10 n) = some n := by
  cases hds : Nat.toDigits 10 n with
  | nil => exact absurd hds Nat.toDigits_ne_nil
  | cons c ds => rw [readDigits, ← hds, foldlM_digitValue isDigit_of_mem_decimal, Nat.ofDigitChars_ten_toDigits]

/-- A decimal number does not begin with 0x. -/
theorem readNumber_decimal (n : Nat) : readNumber (Nat.toDigits 10 n) = some n := by
  unfold readNumber
  split
  · rename_i ds heq
    have hx : 'x'.isDigit = true := isDigit_of_mem_decimal (n := n) 'x' (by simp [heq])
    cases hx
  · exact readDigits_decimal n

/-! ### The text of an operand -/

theorem AsmOperand.toList_text_reg (n : Nat) : (AsmOperand.reg n).text.toList = '$' :: 'r' :: Nat.toDigits 10 n := by
  simp [AsmOperand.text]

theorem AsmOperand.toList_text_imm (n : Nat) : (AsmOperand.imm n).text.toList = Nat.toDigits 10 n := by
  simp [AsmOperand.text]

theorem AsmOperand.readOperand_text (o : AsmOperand) : readOperand o.text.toList = some o := by
  cases o with
  | reg n => simp [toList_text_reg, readOperand, readRegister, readDigits_decimal]
  | imm n =>
    rw [toList_text_imm]
    unfold readOperand
    split
    · rename_i ds heq
      have hdollar : '$'.isDigit = true := isDigit_of_mem_decimal (n := n) '$' (by simp [heq])
      cases hdollar
    · rw [readNumber_decimal]
      rfl

theorem AsmOperand.text_ne_nil (o : AsmOperand) : o.text.toList ≠ [] := by
  cases o with
  | reg n => simp [toList_text_reg]
  | imm n => rw [toList_text_imm]; exact Nat.toDigits_ne_nil

/-- An operand's text holds no separator. -/
theorem AsmOperand.text_separators (o : AsmOperand) : ∀ c ∈ o.text.toList, c ≠ ',' ∧ isBlank c = false := by
  have hdigit : ∀ c : Char, c.isDigit = true → c ≠ ',' ∧ isBlank c = false := by
    intro c hc
    have hne : ∀ d : Char, d.isDigit = false → c ≠ d := by
      rintro d hd rfl
      rw [hd] at hc
      cases hc
    simp [isBlank, hne]
  cases o with
  | reg n =>
    rw [toList_text_reg]
    simp only [List.forall_mem_cons]
    exact ⟨by decide, by decide, fun c hc => hdigit c (isDigit_of_mem_decimal c hc)⟩
  | imm n =>
    rw [toList_text_imm]
    exact fun c hc => hdigit c (isDigit_of_mem_decimal c hc)

theorem solid_of_no_blank {cs : List Char} (hne : cs ≠ []) (h : ∀ c ∈ cs, isBlank c = false) : Solid cs = true := by
  have hhead : cs.head?.all (fun c => !isBlank c) = true :=
    (Option.all_eq_true _ _).2 fun c hc => by simp [h c (List.mem_of_mem_head? hc)]
  have hlast : cs.getLast?.all (fun c => !isBlank c) = true :=
    (Option.all_eq_true _ _).2 fun c hc => by simp [h c (List.mem_of_getLast? hc)]
  simp [Solid, hne, hhead, hlast]

theorem AsmOperand.solid_text (o : AsmOperand) : Solid o.text.toList = true :=
  solid_of_no_blank o.text_ne_nil fun c hc => (o.text_separators c hc).2

theorem AsmOperand.text_no_comma (o : AsmOperand) : o.text.toList.contains ',' = false := by
  simpa using fun hc => (o.text_separators ',' hc).1 rfl

/-! ### The text of the operands -/

theorem toList_operandsText_cons_cons (o p : AsmOperand) (os : List AsmOperand) :
    (operandsText (o :: p :: os)).toList = o.text.toList ++ ([',', ' '] ++ (operandsText (p :: os)).toList) := by
  simp [operandsText]

theorem solid_operandsText (o : AsmOperand) (os : List AsmOperand) : Solid (operandsText (o :: os)).toList = true := by
  induction os generalizing o with
  | nil => exact o.solid_text
  | cons p os ih =>
    rw [toList_operandsText_cons_cons]
    exact solid_append o.solid_text (ih p) _

theorem splitCommas_ne_nil (cs : List Char) : splitCommas cs ≠ [] := by
  cases cs with
  | nil => exact List.cons_ne_nil _ _
  | cons c cs =>
    rw [splitCommas]
    split
    · exact List.cons_ne_nil _ _
    · split <;> exact List.cons_ne_nil _ _

/-- A blank before the pieces is trimmed off the first. -/
theorem mapM_splitCommas_blank (cs : List Char) :
    (splitCommas (' ' :: cs)).mapM (fun o => readOperand (trimBlanks o)) =
      (splitCommas cs).mapM (fun o => readOperand (trimBlanks o)) := by
  rw [splitCommas, if_neg (by decide)]
  split
  · rename_i hnil
    exact absurd hnil (splitCommas_ne_nil cs)
  · rename_i w ws hcons
    rw [hcons, List.mapM_cons, List.mapM_cons, trimBlanks_blank]

theorem mapM_splitCommas_operandsText (o : AsmOperand) (os : List AsmOperand) :
    (splitCommas (operandsText (o :: os)).toList).mapM (fun o => readOperand (trimBlanks o)) = some (o :: os) := by
  have hfirst : readOperand (trimBlanks o.text.toList) = some o := by rw [trimBlanks_solid o.solid_text, o.readOperand_text]
  cases os with
  | nil => rw [operandsText, splitCommas_one o.text_no_comma, List.mapM_cons, hfirst]; rfl
  | cons p os =>
    have hsplit : splitCommas (operandsText (o :: p :: os)).toList =
        o.text.toList :: splitCommas (' ' :: (operandsText (p :: os)).toList) := by
      rw [toList_operandsText_cons_cons]
      exact splitCommas_cons o.text_no_comma _
    rw [hsplit, List.mapM_cons, hfirst, mapM_splitCommas_blank, mapM_splitCommas_operandsText p os]
    rfl

/-! ### The text of a line -/

/-- The line's text reads as the line, for a mnemonic that is one piece and any operands, of any size. -/
theorem readLine_text {l : AsmLine} (hm : l.mnemonic.toList ≠ [])
    (hb : l.mnemonic.toList.all (fun c => !isBlank c) = true) (ho : l.operands ≠ []) : readLine l.text = .ok l := by
  obtain ⟨m, os⟩ := l
  cases os with
  | nil => exact absurd rfl ho
  | cons o os =>
    have hs : Solid m.toList = true := solid_of_no_blank hm (by simpa using hb)
    exact readLine_ok hb hs (solid_operandsText o os) (mapM_splitCommas_operandsText o os) (by simp [AsmLine.text])

/-- The mnemonics are not empty and hold no white space. -/
theorem mnemonics_no_blank :
    ∀ p ∈ asmForms, p.1.toList ≠ [] ∧ p.1.toList.all (fun c => !isBlank c) = true := by decide

theorem operands_disassemble_ne_nil (i : Instr) : (disassemble i).operands ≠ [] := by
  cases i <;> exact List.cons_ne_nil _ _

/-- Settles O59: the text of an instruction's line is read as the line, and the line assembles to the instruction. -/
theorem assemblyTextReadsBack : Obligations.AssemblyTextReadsBack := by
  intro i
  obtain ⟨f, hmem, -⟩ := assemble_eq_ok (assemble_disassemble i)
  obtain ⟨hm, hb⟩ := mnemonics_no_blank _ hmem
  rw [assembleText, readLine_text hm hb (operands_disassemble_ne_nil i)]
  exact assemble_disassemble i

end Sys2Proof
end

section
/-! The identities of R71 and the sample words of 95_test_vectors.md section 2.9. -/

namespace Sys2Proof.Machine

/-! ### Fields and shifts that take everything (R71) -/

theorem pickField_low_word (v : DWord) : pickField v 31 0 = (v.setWidth 32).setWidth 64 :=
  congrArg (BitVec.setWidth 64) (lowWord_eq_setWidth v)

/-- The field 31..0 of a word is the word. -/
theorem pickField_whole_word (v : Word) : pickField v 31 0 = v := by
  refine BitVec.eq_of_getLsbD_eq fun i hi => ?_
  rw [getLsbD_pickField v hi]
  simp [Nat.lt_succ_iff.1 hi]

/-- No shift leaves the high half of the pair. -/
theorem pickBytes_zero {W : Nat} (k j : BitVec W) : pickBytes k j 0 = k := by
  refine BitVec.eq_of_getLsbD_eq fun i hi => ?_
  rw [getLsbD_pickBytes k j (Nat.zero_le W) hi]
  simp

/-- Completing leaves the result in a destination other than register 0. -/
theorem complete_readReg_dest {rd : Reg} (hrd : rd ≠ 0) (v : DWord) (s : State) :
    ∃ t, complete rd v s = .next t ∧ t.readReg rd = v := by
  obtain ⟨t, ht, hreg, -⟩ := complete_spec rd v s
  exact ⟨t, ht, by rw [hreg, if_pos ⟨rfl, hrd⟩]⟩

/-- Settles O39: each instruction completes with the field or the bytes it picks, which are all of its operand. -/
theorem compilerIdentities : Obligations.CompilerIdentities := by
  intro rd rj rk s hrd
  refine ⟨?_, ?_, ?_⟩
  · rw [← pickField_low_word]
    exact complete_readReg_dest hrd _ s
  · rw [← lowWord_eq_setWidth, ← pickField_whole_word (lowWord (s.readReg rj))]
    exact complete_readReg_dest hrd _ s
  · rw [← pickBytes_zero (s.readReg rk) (s.readReg rj)]
    exact complete_readReg_dest hrd _ s

/-- Settles O47: the decoder, run on each of the words. -/
theorem sampleWordsDecode : Obligations.SampleWordsDecode :=
  ⟨by decide, fun w hw => by fin_cases hw <;> decide⟩

end Sys2Proof.Machine
end

section
/-! How an instruction is written, and completing with a result: the two halves that each statement about one instruction has
(R65, R69, R100). Then EXT.W.B and EXT.W.H, which sign-extend the low end of rj (R101, R102). -/

namespace Sys2Proof.Machine

/-- The decoder reads every encoded word, so the line and the word are what is left to say. -/
theorem isWritten_of_encode {i : Instr} {m : String} {os : List AsmOperand} {w : Word} (hline : disassemble i = ⟨m, os⟩)
    (hword : encode i = w) : IsWritten i m os w :=
  ⟨hline, hword, hword ▸ decodeWord_encode i⟩

/-- Format 2R: the opcode in bits 31..10, then rj and rd (R61). -/
theorem isWritten_2R {i : Instr} {m : String} {op : BitVec 22} {rd rj : Reg} (hline : disassemble i = line2R m rd rj)
    (hword : encode i = encode2R (op ++ 0#10) rd rj) :
    IsWritten i m [.reg rd.val, .reg rj.val] (op ++ regBits rj ++ regBits rd) :=
  isWritten_of_encode hline (hword.trans (encode2R_layout op rd rj))

theorem completesWith_of_exec {i : Instr} {s : State} {rd : Reg} {v : DWord} {P : DWord → Prop}
    (h : exec i s = complete rd v s) (hv : P v) : CompletesWith i s rd P :=
  ⟨_, v, h, writesOnly_of_complete rfl, hv⟩

/-- The sign extension of bits n..0 copies bit n into every bit above it (R6). -/
theorem getLsbD_sext64_extractLsb (v : DWord) (n : Nat) {i : Nat} (hi : i < 64) :
    (sext64 (v.extractLsb n 0)).getLsbD i = v.getLsbD (min i n) := by
  rw [getLsbD_sext64 _ (Nat.succ_pos _) hi, BitVec.getLsbD_extractLsb]
  simp

/-- Settles O1: the result is the sign extension of bits 7..0. -/
theorem extWBSignExtendsLowByte : Obligations.ExtWBSignExtendsLowByte := fun _ _ =>
  ⟨isWritten_2R rfl rfl, fun _ => completesWith_of_exec rfl fun _ => getLsbD_sext64_extractLsb _ 7⟩

/-- Settles O2: the result is the sign extension of bits 15..0. -/
theorem extWHSignExtendsLowHalf : Obligations.ExtWHSignExtendsLowHalf := fun _ _ =>
  ⟨isWritten_2R rfl rfl, fun _ => completesWith_of_exec rfl fun _ => getLsbD_sext64_extractLsb _ 15⟩

end Sys2Proof.Machine
end

section
/-! The counts (R111 to R118). The run that a meaning counts in bits W-1..0 of a register is the count of R8 to R11. -/

namespace Sys2Proof.Machine

/-- Counting downward in a string that is bits W-1..0 of `v` (R8, R9). -/
theorem leadingCount_runDown {W : Nat} (b : Bool) {u : BitVec W} {v : DWord}
    (hu : ∀ i, i < W → u.getLsbD i = v.getLsbD i) : LeadingCount b W v (runDown b u W) := by
  obtain ⟨hle, hrun, hend⟩ := runDown_spec b u W
  exact ⟨hle, fun k hk => (hu _ (by omega)).symm.trans (hrun k hk), fun hn => (hu _ (by omega)).symm.trans (hend hn)⟩

/-- Counting upward in a string that is bits W-1..0 of `v` (R10, R11). -/
theorem trailingCount_runUp {W : Nat} (b : Bool) {u : BitVec W} {v : DWord}
    (hu : ∀ i, i < W → u.getLsbD i = v.getLsbD i) : TrailingCount b W v (runUp b u W) := by
  obtain ⟨hle, hrun, hend⟩ := runUp_spec b u le_rfl
  simp only [Nat.sub_self, Nat.zero_add] at hrun hend
  exact ⟨hle, fun k hk => (hu k (by omega)).symm.trans (hrun k hk), fun hn => (hu _ hn).symm.trans (hend hn)⟩

theorem getLsbD_lowWord_of_lt (v : DWord) : ∀ i, i < 32 → (lowWord v).getLsbD i = v.getLsbD i := fun i hi => by
  rw [getLsbD_lowWord, decide_eq_true hi, Bool.true_and]

/-- An instruction that completes with the 64-bit string of a count (R17). -/
theorem completesWith_count {i : Instr} {s : State} {rd : Reg} {n : Nat} {P : Nat → Prop}
    (h : exec i s = complete rd (countValue n) s) (hn : P n) :
    CompletesWith i s rd fun v => ∃ n, P n ∧ v = BitVec.ofNat 64 n :=
  completesWith_of_exec h ⟨n, hn, rfl⟩

/-! ### The word forms: bits 31..0 of rj (R111 to R114) -/

/-- Settles O3: CLO is the downward run of ones in the low word. -/
theorem cloWCountsLeadingOnes : Obligations.CloWCountsLeadingOnes := fun _ _ =>
  ⟨isWritten_2R rfl rfl, fun _ => completesWith_count rfl (leadingCount_runDown true (getLsbD_lowWord_of_lt _))⟩

/-- Settles O4: CLZ is the downward run of zeros in the low word. -/
theorem clzWCountsLeadingZeros : Obligations.ClzWCountsLeadingZeros := fun _ _ =>
  ⟨isWritten_2R rfl rfl, fun _ => completesWith_count rfl (leadingCount_runDown false (getLsbD_lowWord_of_lt _))⟩

/-- Settles O5: CTO is the upward run of ones in the low word. -/
theorem ctoWCountsTrailingOnes : Obligations.CtoWCountsTrailingOnes := fun _ _ =>
  ⟨isWritten_2R rfl rfl, fun _ => completesWith_count rfl (trailingCount_runUp true (getLsbD_lowWord_of_lt _))⟩

/-- Settles O6: CTZ is the upward run of zeros in the low word. -/
theorem ctzWCountsTrailingZeros : Obligations.CtzWCountsTrailingZeros := fun _ _ =>
  ⟨isWritten_2R rfl rfl, fun _ => completesWith_count rfl (trailingCount_runUp false (getLsbD_lowWord_of_lt _))⟩

/-! ### The double-word forms: all bits of rj (R115 to R118) -/

/-- Settles O7: CLO is the downward run of ones in the register. -/
theorem cloDCountsLeadingOnes : Obligations.CloDCountsLeadingOnes := fun _ _ =>
  ⟨isWritten_2R rfl rfl, fun _ => completesWith_count rfl (leadingCount_runDown true fun _ _ => rfl)⟩

/-- Settles O8: CLZ is the downward run of zeros in the register. -/
theorem clzDCountsLeadingZeros : Obligations.ClzDCountsLeadingZeros := fun _ _ =>
  ⟨isWritten_2R rfl rfl, fun _ => completesWith_count rfl (leadingCount_runDown false fun _ _ => rfl)⟩

/-- Settles O9: CTO is the upward run of ones in the register. -/
theorem ctoDCountsTrailingOnes : Obligations.CtoDCountsTrailingOnes := fun _ _ =>
  ⟨isWritten_2R rfl rfl, fun _ => completesWith_count rfl (trailingCount_runUp true fun _ _ => rfl)⟩

/-- Settles O10: CTZ is the upward run of zeros in the register. -/
theorem ctzDCountsTrailingZeros : Obligations.CtzDCountsTrailingZeros := fun _ _ =>
  ⟨isWritten_2R rfl rfl, fun _ => completesWith_count rfl (trailingCount_runUp false fun _ _ => rfl)⟩

end Sys2Proof.Machine
end

section
/-! BYTEPICK (R120 to R122): the bytes picked from a pair of registers, bit by bit, as two shifts, and as a rotation where the
pair is one register twice. -/

namespace Sys2Proof.Machine

/-! ### The result bit by bit (R121, R122) -/

theorem wordBit_lt (i : Nat) : wordBit i < 32 :=
  Nat.lt_succ_of_le (Nat.min_le_right i 31)

theorem getLsbD_sext64_word (v : Word) {i : Nat} (hi : i < 64) : (sext64 v).getLsbD i = v.getLsbD (wordBit i) :=
  getLsbD_sext64 v (by decide) hi

/-- The bytes picked from two low words: both bits named lie in a low word, so they are the registers' own. -/
theorem getLsbD_pickBytes_lowWord (k j : DWord) {sa i : Nat} (hsa : 8 * sa ≤ 32) (hi : i < 32) :
    (pickBytes (lowWord k) (lowWord j) sa).getLsbD i =
      if i < 8 * sa then j.getLsbD (32 - 8 * sa + i) else k.getLsbD (i - 8 * sa) := by
  rw [getLsbD_pickBytes _ _ hsa hi]
  by_cases h : i < 8 * sa
  · rw [if_pos h, if_pos h, getLsbD_lowWord_of_lt j _ (by omega)]
  · rw [if_neg h, if_neg h, getLsbD_lowWord_of_lt k _ (by omega)]

/-- Settles O11: the result is the sign extension of the bytes picked from the two low words. -/
theorem bytepickWPicksBytesOfPair : Obligations.BytepickWPicksBytesOfPair := fun rd rj rk sa2 =>
  ⟨isWritten_of_encode rfl (encode3R_layout_sa2 0b000000000000100#15 rd rj rk sa2), fun _ => completesWith_of_exec rfl
    fun i hi => (getLsbD_sext64_word _ hi).trans (getLsbD_pickBytes_lowWord _ _ (by omega) (wordBit_lt i))⟩

/-- Settles O12: the result is the bytes picked from the two registers. -/
theorem bytepickDPicksBytesOfPair : Obligations.BytepickDPicksBytesOfPair := fun rd rj rk sa3 =>
  ⟨isWritten_of_encode rfl (encode3R_layout_sa3 0b00000000000011#14 rd rj rk sa3), fun _ => completesWith_of_exec rfl
    fun _ hi => getLsbD_pickBytes _ _ (by omega) hi⟩

/-! ### As shifts and as a rotation (R120) -/

/-- The shifted high string has zeros below bit 8*sa and the shifted low string only zeros from there up. -/
theorem pickBytes_eq_shifts {W sa : Nat} (k j : BitVec W) (hsa : 8 * sa ≤ W) :
    pickBytes k j sa = (k <<< (8 * sa)) ||| (j >>> (W - 8 * sa)) := by
  refine BitVec.eq_of_getLsbD_eq fun i hi => ?_
  rw [getLsbD_pickBytes k j hsa hi, BitVec.getLsbD_or, BitVec.getLsbD_shiftLeft, BitVec.getLsbD_ushiftRight]
  by_cases h : i < 8 * sa
  · simp [h]
  · have hhigh : W ≤ W - 8 * sa + i := by omega
    simp [h, hi, BitVec.getLsbD_of_ge j _ hhigh]

theorem pickBytes_self {W sa : Nat} (v : BitVec W) (hsa : 8 * sa < W) : pickBytes v v sa = v.rotateLeft (8 * sa) := by
  rw [pickBytes_eq_shifts v v hsa.le, BitVec.rotateLeft_def, Nat.mod_eq_of_lt hsa]

/-- Settles O31: each form completes with the bytes it picks, which are the two shifted strings. -/
theorem bytepickIsShiftFormula : Obligations.BytepickIsShiftFormula := by
  intro rd rj rk s
  refine ⟨fun sa2 => ?_, fun sa3 => ?_⟩
  · rw [← pickBytes_eq_shifts _ _ (by omega), ← lowWord_eq_setWidth, ← lowWord_eq_setWidth]
    rfl
  · rw [← pickBytes_eq_shifts _ _ (by omega)]
    rfl

/-- Settles O37: the bytes picked from one register twice are its rotation. -/
theorem bytepickOfOneRegisterRotates : Obligations.BytepickOfOneRegisterRotates := by
  intro rd r s hrd
  refine ⟨fun sa2 => ?_, fun sa3 => ?_⟩
  · rw [← pickBytes_self _ (by omega), ← lowWord_eq_setWidth]
    exact complete_readReg_dest hrd _ s
  · rw [← pickBytes_self _ (by omega)]
    exact complete_readReg_dest hrd _ s

end Sys2Proof.Machine
end

section
/-! The reversals as permutations of bits: cut into groups of `g` units of `u` bits, the order of the units reversed in each group
(`mirrorBit`). Whatever reverses this way is its own inverse, and reversing the units in groups of `a`, then these groups as
units in groups of `b`, reverses the units in groups of `a * b`. Then REVB.2H, REVB.4H, REVB.2W and REVB.D (R130 to R134). -/

namespace Sys2Proof.Machine

/-! ### The place a bit goes to -/

/-- Bit `j` of the unit that has `p` units of its group below it and `q` above goes to the unit that has `q` below and `p` above. -/
theorem mirrorBit_eq {u g p q j : Nat} (s : Nat) (hj : j < u) (hpq : p + q + 1 = g) :
    mirrorBit u g (u * (g * s + p) + j) = u * (g * s + q) + j := by
  have hunit : (u * (g * s + p) + j) / u = g * s + p := by rw [Nat.mul_add_div (by omega), Nat.div_eq_of_lt hj, Nat.add_zero]
  have hgroup : (g * s + p) / g = s := by rw [Nat.mul_add_div (by omega), Nat.div_eq_of_lt (by omega), Nat.add_zero]
  rw [mirrorBit, hunit, hgroup, Nat.mul_add_mod, Nat.mul_add_mod, Nat.mod_eq_of_lt hj, Nat.mod_eq_of_lt (by omega),
    show g - 1 - p = q by omega]

/-- Every bit stands at some place of this kind. -/
theorem exists_place {u g : Nat} (hu : 0 < u) (hg : 0 < g) (i : Nat) :
    ∃ s p q j, j < u ∧ p + q + 1 = g ∧ i = u * (g * s + p) + j := by
  have hp : i / u % g < g := Nat.mod_lt _ hg
  refine ⟨i / u / g, i / u % g, g - 1 - i / u % g, i % u, Nat.mod_lt _ hu, by omega, ?_⟩
  rw [Nat.div_add_mod, Nat.div_add_mod]

theorem mirrorBit_mirrorBit {u g : Nat} (hu : 0 < u) (hg : 0 < g) (i : Nat) : mirrorBit u g (mirrorBit u g i) = i := by
  obtain ⟨s, p, q, j, hj, hpq, rfl⟩ := exists_place hu hg i
  have hqp : q + p + 1 = g := by omega
  rw [mirrorBit_eq s hj hpq, mirrorBit_eq s hj hqp]

/-- A bit stays in its group, so it stays in a string of whole groups. -/
theorem mirrorBit_lt {u g n i : Nat} (hn : u * g ∣ n) (hi : i < n) : mirrorBit u g i < n := by
  obtain ⟨m, rfl⟩ := hn
  have hpos : 0 < u * g := Nat.pos_of_mul_pos_right (Nat.zero_lt_of_lt hi)
  obtain ⟨s, p, q, j, hj, hpq, rfl⟩ := exists_place (Nat.pos_of_mul_pos_right hpos) (Nat.pos_of_mul_pos_left hpos) i
  rw [mirrorBit_eq s hj hpq]
  have hs : s < m := by
    refine Nat.lt_of_mul_lt_mul_left (a := u * g) (lt_of_le_of_lt ?_ hi)
    rw [Nat.mul_add, Nat.mul_assoc]
    omega
  calc u * (g * s + q) + j < u * (g * s + q) + u := by omega
    _ = u * (g * s + (q + 1)) := by ring
    _ ≤ u * (g * s + g) := Nat.mul_le_mul_left u (by omega)
    _ = u * g * (s + 1) := by ring
    _ ≤ u * g * m := Nat.mul_le_mul_left _ hs

/-- A group of `a` units is one unit of the longer reversal. -/
theorem mirrorBit_mirrorBit_group {u a b : Nat} (hu : 0 < u) (ha : 0 < a) (hb : 0 < b) (i : Nat) :
    mirrorBit u a (mirrorBit (u * a) b i) = mirrorBit u (a * b) i := by
  obtain ⟨k, p, q, j, hj, hpq, rfl⟩ := exists_place hu ha i
  obtain ⟨s, x, y, z, hz, hxy, rfl⟩ := exists_place Nat.one_pos hb k
  obtain rfl : z = 0 := by omega
  have hlow : u * p + j < u * a := by
    calc u * p + j < u * p + u := by omega
      _ = u * (p + 1) := by ring
      _ ≤ u * a := Nat.mul_le_mul_left u (by omega)
  have hunits : a * x + p + (a * y + q) + 1 = a * b := by rw [← hxy, ← hpq]; ring
  calc mirrorBit u a (mirrorBit (u * a) b (u * (a * (1 * (b * s + x) + 0) + p) + j))
      = mirrorBit u a (mirrorBit (u * a) b (u * a * (b * s + x) + (u * p + j))) := by congr 2; ring
    _ = mirrorBit u a (u * a * (b * s + y) + (u * p + j)) := by rw [mirrorBit_eq s hlow hxy]
    _ = mirrorBit u a (u * (a * (b * s + y) + p) + j) := by congr 1; ring
    _ = u * (a * (b * s + y) + q) + j := mirrorBit_eq _ hj hpq
    _ = u * (a * b * s + (a * y + q)) + j := by ring
    _ = mirrorBit u (a * b) (u * (a * b * s + (a * x + p)) + j) := (mirrorBit_eq s hj hunits).symm
    _ = mirrorBit u (a * b) (u * (a * (1 * (b * s + x) + 0) + p) + j) := by congr 1; ring

/-! ### Strings that are a reversal -/

/-- `r` is the part of the reversal of `v` that begins at bit `c`; with `c = 0` and 64 bits it is the whole of it. -/
def MirrorsAt (u g : Nat) (v : DWord) (c : Nat) {W : Nat} (r : BitVec W) : Prop :=
  ∀ i, i < W → r.getLsbD i = v.getLsbD (mirrorBit u g (i + c))

theorem MirrorsAt.append {u g c m n : Nat} {v : DWord} {high : BitVec m} {low : BitVec n}
    (hhigh : MirrorsAt u g v (n + c) high) (hlow : MirrorsAt u g v c low) : MirrorsAt u g v c (high ++ low) := by
  intro i hi
  rw [BitVec.getLsbD_append]
  by_cases h : i < n
  · rw [if_pos h, hlow i h]
  · rw [if_neg h, hhigh (i - n) (by omega), show i - n + (n + c) = i + c by omega]

/-- One unit of `v`, put where its lowest bit goes. -/
theorem mirrorsAt_unit {u g b c : Nat} (v : DWord) (hc : c % u = 0) (hb : mirrorBit u g c = b) :
    MirrorsAt u g v c (v.extractLsb' b u) := by
  intro i hi
  obtain ⟨k, rfl⟩ := Nat.dvd_of_mod_eq_zero hc
  have hu : 0 < u := by omega
  have hplace : mirrorBit u g (i + u * k) = b + i := by
    rw [← hb, mirrorBit, mirrorBit, Nat.add_mul_div_left _ _ hu, Nat.div_eq_of_lt hi, Nat.zero_add, Nat.add_mul_mod_self_left,
      Nat.mod_eq_of_lt hi, Nat.mul_div_cancel_left _ hu, Nat.mul_mod_right, Nat.add_zero]
  rw [BitVec.getLsbD_extractLsb', decide_eq_true hi, Bool.true_and, hplace]

theorem mirrorsAt_bytePair {g c m n : Nat} (v : DWord)
    (h : c % 8 = 0 ∧ mirrorBit 8 g (8 + c) = 8 * m ∧ mirrorBit 8 g c = 8 * n) : MirrorsAt 8 g v c (bytePair v m n) := by
  obtain ⟨hc, hm, hn⟩ := h
  exact .append (mirrorsAt_unit v (by omega) hm) (mirrorsAt_unit v hc hn)

/-- A bit-reversed byte at its own place. -/
theorem mirrorsAt_bitrev_byteAt {c n : Nat} (v : DWord) (hc : c = 8 * n) : MirrorsAt 1 8 v c (bitrev (byteAt v n)) := by
  intro i hi
  rw [getLsbD_bitrev _ hi, getLsbD_byteAt, decide_eq_true (by omega), Bool.true_and]
  exact congrArg v.getLsbD (by simp only [mirrorBit]; omega)

theorem mirrorsAt_bytesReversed {c n : Nat} (v : DWord) (hc : c = 8 * n) : MirrorsAt 1 8 v c (bytesReversed v n) :=
  .append (.append (.append (mirrorsAt_bitrev_byteAt v (by omega)) (mirrorsAt_bitrev_byteAt v (by omega)))
    (mirrorsAt_bitrev_byteAt v (by omega))) (mirrorsAt_bitrev_byteAt v hc)

theorem mirrorsAt_bitrev (v : DWord) : MirrorsAt 1 64 v 0 (bitrev v) := by
  intro i hi
  rw [getLsbD_bitrev _ hi]
  exact congrArg v.getLsbD (by simp only [mirrorBit]; omega)

section
variable {u g a b : Nat} {v r w : DWord}

/-- A register's string from its four half-words. -/
theorem MirrorsAt.halves {h3 h2 h1 h0 : Half} (hr3 : MirrorsAt u g v 48 h3) (hr2 : MirrorsAt u g v 32 h2)
    (hr1 : MirrorsAt u g v 16 h1) (hr0 : MirrorsAt u g v 0 h0) : MirrorsAt u g v 0 (h3 ++ h2 ++ h1 ++ h0) :=
  .append (.append (.append hr3 hr2) hr1) hr0

theorem MirrorsAt.getLsbD (hr : MirrorsAt u g v 0 r) {i : Nat} (hi : i < 64) : r.getLsbD i = v.getLsbD (mirrorBit u g i) :=
  hr i hi

theorem MirrorsAt.unique (hr : MirrorsAt u g v 0 r) (hw : MirrorsAt u g v 0 w) : r = w :=
  BitVec.eq_of_getLsbD_eq fun _ hi => (hr.getLsbD hi).trans (hw.getLsbD hi).symm

theorem MirrorsAt.twice (hr : MirrorsAt u g v 0 r) (hw : MirrorsAt u g r 0 w) (hd : u * g ∣ 64) : w = v := by
  have hpos : 0 < u * g := Nat.pos_of_dvd_of_pos hd (by decide)
  refine BitVec.eq_of_getLsbD_eq fun i hi => ?_
  rw [hw.getLsbD hi, hr.getLsbD (mirrorBit_lt hd hi),
    mirrorBit_mirrorBit (Nat.pos_of_mul_pos_right hpos) (Nat.pos_of_mul_pos_left hpos)]

theorem MirrorsAt.compose (hr : MirrorsAt u a v 0 r) (hw : MirrorsAt (u * a) b r 0 w) (hd : u * a * b ∣ 64) :
    MirrorsAt u (a * b) v 0 w := by
  intro i hi
  have hpos : 0 < u * a * b := Nat.pos_of_dvd_of_pos hd (by decide)
  have hua : 0 < u * a := Nat.pos_of_mul_pos_right hpos
  rw [hw.getLsbD hi, hr.getLsbD (mirrorBit_lt hd hi), Nat.add_zero,
    mirrorBit_mirrorBit_group (Nat.pos_of_mul_pos_right hua) (Nat.pos_of_mul_pos_left hua) (Nat.pos_of_mul_pos_left hpos)]

end

/-! ### The instructions that reverse 64 bits -/

/-- The instruction completes with the reversal of rj (R130, R140, R150, R160). -/
def IsReversal (u g : Nat) (op : Reg → Reg → Instr) : Prop :=
  ∀ rd rj s, ∃ r, exec (op rd rj) s = complete rd r s ∧ MirrorsAt u g (s.readReg rj) 0 r

theorem isReversal_revb4H : IsReversal 8 2 .revb4H := fun _ _ _ =>
  ⟨_, rfl, .halves (mirrorsAt_bytePair _ (by decide)) (mirrorsAt_bytePair _ (by decide)) (mirrorsAt_bytePair _ (by decide))
    (mirrorsAt_bytePair _ (by decide))⟩

theorem isReversal_revb2W : IsReversal 8 4 .revb2W := fun _ _ _ =>
  ⟨_, rfl, .halves (mirrorsAt_bytePair _ (by decide)) (mirrorsAt_bytePair _ (by decide)) (mirrorsAt_bytePair _ (by decide))
    (mirrorsAt_bytePair _ (by decide))⟩

theorem isReversal_revbD : IsReversal 8 8 .revbD := fun _ _ _ =>
  ⟨_, rfl, .halves (mirrorsAt_bytePair _ (by decide)) (mirrorsAt_bytePair _ (by decide)) (mirrorsAt_bytePair _ (by decide))
    (mirrorsAt_bytePair _ (by decide))⟩

theorem isReversal_revh2W : IsReversal 16 2 .revh2W := fun _ _ _ =>
  ⟨_, rfl, .halves (mirrorsAt_unit _ rfl rfl) (mirrorsAt_unit _ rfl rfl) (mirrorsAt_unit _ rfl rfl) (mirrorsAt_unit _ rfl rfl)⟩

theorem isReversal_revhD : IsReversal 16 4 .revhD := fun _ _ _ =>
  ⟨_, rfl, .halves (mirrorsAt_unit _ rfl rfl) (mirrorsAt_unit _ rfl rfl) (mirrorsAt_unit _ rfl rfl) (mirrorsAt_unit _ rfl rfl)⟩

theorem isReversal_bitrev8B : IsReversal 1 8 .bitrev8B := fun _ _ _ =>
  ⟨_, rfl, .append (mirrorsAt_bytesReversed _ rfl) (mirrorsAt_bytesReversed _ rfl)⟩

theorem isReversal_bitrevD : IsReversal 1 64 .bitrevD := fun _ _ _ =>
  ⟨_, rfl, mirrorsAt_bitrev _⟩

section
variable {u g a b : Nat} {op op₁ op₂ op₃ : Reg → Reg → Instr} {rd : Reg}

theorem IsReversal.completesWith (h : IsReversal u g op) (rd rj : Reg) (s : State) :
    CompletesWith (op rd rj) s rd fun v => ∀ i, i < 64 → v.getLsbD i = (s.readReg rj).getLsbD (mirrorBit u g i) := by
  obtain ⟨_, hexec, hr⟩ := h rd rj s
  exact completesWith_of_exec hexec hr

/-- The reversal of rj is left in a destination other than register 0. -/
theorem IsReversal.readReg_dest (h : IsReversal u g op) (hrd : rd ≠ 0) (rj : Reg) (s : State) :
    ∃ t, exec (op rd rj) s = .next t ∧ MirrorsAt u g (s.readReg rj) 0 (t.readReg rd) := by
  obtain ⟨r, hexec, hr⟩ := h rd rj s
  obtain ⟨t, ht, hread⟩ := complete_readReg_dest hrd r s
  exact ⟨t, hexec.trans ht, hread.symm ▸ hr⟩

theorem IsReversal.involution (h : IsReversal u g op) (hd : u * g ∣ 64) (hrd : rd ≠ 0) (rj : Reg) (s : State) :
    ∃ t w, exec (op rd rj) s = .next t ∧ exec (op rd rd) t = .next w ∧ w.readReg rd = s.readReg rj := by
  obtain ⟨t, ht, hrt⟩ := h.readReg_dest hrd rj s
  obtain ⟨w, hw, hrw⟩ := h.readReg_dest hrd rd t
  exact ⟨t, w, ht, hw, hrt.twice hrw hd⟩

theorem IsReversal.compose (h₁ : IsReversal u a op₁) (h₂ : IsReversal (u * a) b op₂) (h₃ : IsReversal u (a * b) op₃)
    (hd : u * a * b ∣ 64) (hrd : rd ≠ 0) (rj : Reg) (s : State) :
    ∃ t x w, exec (op₁ rd rj) s = .next t ∧ exec (op₂ rd rd) t = .next x ∧ exec (op₃ rd rj) s = .next w ∧
      x.readReg rd = w.readReg rd := by
  obtain ⟨t, ht, hrt⟩ := h₁.readReg_dest hrd rj s
  obtain ⟨x, hx, hrx⟩ := h₂.readReg_dest hrd rd t
  obtain ⟨w, hw, hrw⟩ := h₃.readReg_dest hrd rj s
  exact ⟨t, x, w, ht, hx, hw, (hrt.compose hrx hd).unique hrw⟩

end

/-- Settles O35: each is a reversal whose groups fill the register. -/
theorem reversalsAreInvolutions : Obligations.ReversalsAreInvolutions := by
  intro op hop rd rj s hrd
  simp only [List.mem_cons, List.not_mem_nil, or_false] at hop
  obtain rfl | rfl | rfl | rfl | rfl | rfl | rfl := hop
  · exact isReversal_revb4H.involution (by decide) hrd rj s
  · exact isReversal_revb2W.involution (by decide) hrd rj s
  · exact isReversal_revbD.involution (by decide) hrd rj s
  · exact isReversal_revh2W.involution (by decide) hrd rj s
  · exact isReversal_revhD.involution (by decide) hrd rj s
  · exact isReversal_bitrev8B.involution (by decide) hrd rj s
  · exact isReversal_bitrevD.involution (by decide) hrd rj s

/-- Settles O36: in each pair, the groups of the first instruction are the units of the second. -/
theorem reversalsCompose : Obligations.ReversalsCompose := by
  intro ops hops rd rj s hrd
  simp only [List.mem_cons, List.not_mem_nil, or_false] at hops
  obtain rfl | rfl | rfl := hops
  · exact isReversal_revb4H.compose isReversal_revhD isReversal_revbD (by decide) hrd rj s
  · exact isReversal_revb4H.compose isReversal_revh2W isReversal_revb2W (by decide) hrd rj s
  · exact isReversal_bitrev8B.compose isReversal_revbD isReversal_bitrevD (by decide) hrd rj s

/-! ### REVB (R131 to R134) -/

theorem mirrorsAt_revb2H (v : DWord) : MirrorsAt 8 2 v 0 (bytePair v 2 3 ++ bytePair v 0 1) :=
  .append (mirrorsAt_bytePair v (by decide)) (mirrorsAt_bytePair v (by decide))

/-- Settles O13: the result is the sign extension of the low half of what REVB.4H gives. -/
theorem revb2HSwapsBytesOfHalves : Obligations.Revb2HSwapsBytesOfHalves := fun _ _ =>
  ⟨isWritten_2R rfl rfl, fun _ => completesWith_of_exec rfl fun i hi =>
    (getLsbD_sext64_word _ hi).trans (mirrorsAt_revb2H _ _ (wordBit_lt i))⟩

/-- Settles O14: the byte list of R132 has the two bytes of each half-word exchanged. -/
theorem revb4HSwapsBytesOfHalves : Obligations.Revb4HSwapsBytesOfHalves := fun rd rj =>
  ⟨isWritten_2R rfl rfl, isReversal_revb4H.completesWith rd rj⟩

/-- Settles O15: the byte list of R133 has the four bytes of each word in reverse. -/
theorem revb2WReversesBytesOfWords : Obligations.Revb2WReversesBytesOfWords := fun rd rj =>
  ⟨isWritten_2R rfl rfl, isReversal_revb2W.completesWith rd rj⟩

/-- Settles O16: the byte list of R134 has the eight bytes in reverse. -/
theorem revbDReversesBytes : Obligations.RevbDReversesBytes := fun rd rj =>
  ⟨isWritten_2R rfl rfl, isReversal_revbD.completesWith rd rj⟩

end Sys2Proof.Machine
end

section
/-! REVH.2W and REVH.D (R141, R142): the reversals of the half-words as units, in groups of 2 and of 4. -/

namespace Sys2Proof.Machine

/-- Settles O17: the half-word list of R141 has the two half-words of each word exchanged. -/
theorem revh2WSwapsHalvesOfWords : Obligations.Revh2WSwapsHalvesOfWords := fun rd rj =>
  ⟨isWritten_2R rfl rfl, isReversal_revh2W.completesWith rd rj⟩

/-- Settles O18: the half-word list of R142 has the four half-words in reverse. -/
theorem revhDReversesHalves : Obligations.RevhDReversesHalves := fun rd rj =>
  ⟨isWritten_2R rfl rfl, isReversal_revhD.completesWith rd rj⟩

end Sys2Proof.Machine
end

section
/-! BITREV.4B and BITREV.8B (R151, R152): the reversals of the single bits as units, in groups of 8. -/

namespace Sys2Proof.Machine

/-- Settles O19: the result is the sign extension of the four bit-reversed bytes of the low word, each at its own place. -/
theorem bitrev4BReversesBitsOfLowBytes : Obligations.Bitrev4BReversesBitsOfLowBytes := fun _ _ =>
  ⟨isWritten_2R rfl rfl, fun _ => completesWith_of_exec rfl fun i hi =>
    (getLsbD_sext64_word _ hi).trans (mirrorsAt_bytesReversed _ rfl _ (wordBit_lt i))⟩

/-- Settles O20: the byte list of R152 has each byte at its place with its bits in reverse. -/
theorem bitrev8BReversesBitsOfBytes : Obligations.Bitrev8BReversesBitsOfBytes := fun rd rj =>
  ⟨isWritten_2R rfl rfl, isReversal_bitrev8B.completesWith rd rj⟩

end Sys2Proof.Machine
end

section
/-! BITREV.W and BITREV.D (R161, R162): the reversals of the single bits as units, in groups of 32 and of 64. -/

namespace Sys2Proof.Machine

/-- The reversed low word takes only bits of the low word, which are the register's own. -/
theorem mirrorsAt_bitrev_lowWord (v : DWord) : MirrorsAt 1 32 v 0 (bitrev (lowWord v)) := by
  intro i hi
  have hplace : 32 - 1 - i = mirrorBit 1 32 (i + 0) := by simp only [mirrorBit]; omega
  rw [getLsbD_bitrev _ hi, getLsbD_lowWord_of_lt v _ (by omega), hplace]

/-- Settles O21: the result is the sign extension of the low word with its bits in reverse. -/
theorem bitrevWReversesLowWord : Obligations.BitrevWReversesLowWord := fun _ _ =>
  ⟨isWritten_2R rfl rfl, fun _ => completesWith_of_exec rfl fun i hi =>
    (getLsbD_sext64_word _ hi).trans (mirrorsAt_bitrev_lowWord _ _ (wordBit_lt i))⟩

/-- Settles O22: the result is the register with its 64 bits in reverse. -/
theorem bitrevDReversesRegister : Obligations.BitrevDReversesRegister := fun rd rj =>
  ⟨isWritten_2R rfl rfl, isReversal_bitrevD.completesWith rd rj⟩

end Sys2Proof.Machine
end

section
/-! BSTRINS (R170 to R173): the field [msb:lsb] of rd replaced by the low bits of rj, bit by bit and as masks, and the fault where
msb < lsb leaves no field. -/

namespace Sys2Proof.Machine

/-! ### The result bit by bit (R171, R172) -/

theorem exec_bstrinsW_of_le {msbw lsbw : Fin 32} (h : lsbw ≤ msbw) (rd rj : Reg) (s : State) :
    exec (.bstrinsW rd rj msbw lsbw) s =
      complete rd (sext64 (insertField (lowWord (s.readReg rd)) (lowWord (s.readReg rj)) msbw.val lsbw.val)) s :=
  (exec_bstrinsW rd rj msbw lsbw s).trans (if_pos (decide_eq_true h))

theorem exec_bstrinsD_of_le {msbd lsbd : Fin 64} (h : lsbd ≤ msbd) (rd rj : Reg) (s : State) :
    exec (.bstrinsD rd rj msbd lsbd) s = complete rd (insertField (s.readReg rd) (s.readReg rj) msbd.val lsbd.val) s :=
  (exec_bstrinsD rd rj msbd lsbd s).trans (if_pos (decide_eq_true h))

/-- An insertion into a low word: both bits named lie in a low word, so they are the registers' own. -/
theorem getLsbD_insertField_lowWord (old src : DWord) {msb lsb i : Nat} (hm : msb < 32) (hl : lsb ≤ msb) (hi : i < 32) :
    (insertField (lowWord old) (lowWord src) msb lsb).getLsbD i =
      if lsb ≤ i ∧ i ≤ msb then src.getLsbD (i - lsb) else old.getLsbD i := by
  rw [getLsbD_insertField _ _ hm hl hi, getLsbD_lowWord_of_lt src _ (by omega), getLsbD_lowWord_of_lt old i hi]

/-- Settles O23: the result is the sign extension of the low word of rd with the field replaced. -/
theorem bstrinsWInsertsField : Obligations.BstrinsWInsertsField := fun rd rj msbw lsbw =>
  ⟨isWritten_of_encode rfl (encodeMsbLsb_layoutW 0b00000000011#11 0#1 rd rj msbw lsbw), fun h s =>
    completesWith_of_exec (exec_bstrinsW_of_le h rd rj s) fun i hi =>
      (getLsbD_sext64_word _ hi).trans (getLsbD_insertField_lowWord _ _ msbw.isLt h (wordBit_lt i))⟩

/-- Settles O24: the result is rd with the field replaced. -/
theorem bstrinsDInsertsField : Obligations.BstrinsDInsertsField := fun rd rj msbd lsbd =>
  ⟨isWritten_of_encode rfl (encodeMsbLsb_layoutD 0b0000000010#10 rd rj msbd lsbd), fun h s =>
    completesWith_of_exec (exec_bstrinsD_of_le h rd rj s) fun _ hi => getLsbD_insertField _ _ msbd.isLt h hi⟩

/-! ### As masks (R170) -/

/-- 2^n - 1 as a string: ones in the n lowest bits. -/
theorem getLsbD_lowOnes {W n i : Nat} (hi : i < W) : (BitVec.ofNat W (2 ^ n - 1)).getLsbD i = decide (i < n) := by
  rw [BitVec.getLsbD_ofNat, Nat.testBit_two_pow_sub_one, decide_eq_true hi, Bool.true_and]

/-- The mask M of R170, which has its ones in the field [msb:lsb]. -/
def fieldMask (W msb lsb : Nat) : BitVec W := BitVec.ofNat W (2 ^ (msb - lsb + 1) - 1) <<< lsb

theorem getLsbD_fieldMask {W msb lsb i : Nat} (hl : lsb ≤ msb) (hi : i < W) :
    (fieldMask W msb lsb).getLsbD i = decide (lsb ≤ i ∧ i ≤ msb) := by
  rw [fieldMask, BitVec.getLsbD_shiftLeft, getLsbD_lowOnes (by omega)]
  by_cases h : i < lsb
  · simp [h]
  · simp [hi, h, Nat.not_lt.1 h, show i - lsb < msb - lsb + 1 ↔ i ≤ msb by omega]

/-- The mask keeps the shifted source in the field, its complement the old value outside it. -/
theorem insertField_eq_masks {W msb lsb : Nat} (old src : BitVec W) (hm : msb < W) (hl : lsb ≤ msb) :
    insertField old src msb lsb = (old &&& ~~~fieldMask W msb lsb) ||| ((src <<< lsb) &&& fieldMask W msb lsb) := by
  refine BitVec.eq_of_getLsbD_eq fun i hi => ?_
  rw [getLsbD_insertField old src hm hl hi, BitVec.getLsbD_or, BitVec.getLsbD_and, BitVec.getLsbD_and, BitVec.getLsbD_not,
    BitVec.getLsbD_shiftLeft, getLsbD_fieldMask hl hi]
  by_cases h : lsb ≤ i ∧ i ≤ msb <;> simp [h, hi]

/-- Settles O32: each form completes with its insertion, which is the formula of R170. -/
theorem bstrinsIsMaskFormula : Obligations.BstrinsIsMaskFormula := by
  refine fun rd rj s => ⟨fun msbw lsbw h => ?_, fun msbd lsbd h => ?_⟩
  · rw [exec_bstrinsW_of_le h, insertField_eq_masks _ _ msbw.isLt h, lowWord_eq_setWidth, lowWord_eq_setWidth]
    rfl
  · rw [exec_bstrinsD_of_le h, insertField_eq_masks _ _ msbd.isLt h]
    rfl

/-! ### No field (R173, R205) -/

/-- What the well-formedness check rejects has no execution either. -/
theorem rejected_and_faults {i : Instr} (h : i.wellFormed = false) (s : State) :
    i.wellFormed = false ∧ exec i s = .fault (.msbLessThanLsb s.pc (encode i)) :=
  ⟨h, exec_of_not_wellFormed h s⟩

/-- Settles O29: a term with msb < lsb is not well-formed, and executing such a term is the fault. -/
theorem bstrinsFaultsOnMsbBelowLsb : Obligations.BstrinsFaultsOnMsbBelowLsb := fun rd rj s =>
  ⟨fun msbw lsbw h => rejected_and_faults (i := .bstrinsW rd rj msbw lsbw) (decide_eq_false h.not_ge) s,
    fun msbd lsbd h => rejected_and_faults (i := .bstrinsD rd rj msbd lsbd) (decide_eq_false h.not_ge) s⟩

end Sys2Proof.Machine
end

section
/-! BSTRPICK (R180 to R183): the field [msb:lsb] of rj, right-justified, bit by bit and as a shift and a mask, and the fault where
msb < lsb leaves no field. -/

namespace Sys2Proof.Machine

/-! ### The result bit by bit (R181, R182) -/

theorem exec_bstrpickW_of_le {msbw lsbw : Fin 32} (h : lsbw ≤ msbw) (rd rj : Reg) (s : State) :
    exec (.bstrpickW rd rj msbw lsbw) s = complete rd (sext64 (pickField (lowWord (s.readReg rj)) msbw.val lsbw.val)) s :=
  (exec_bstrpickW rd rj msbw lsbw s).trans (if_pos (decide_eq_true h))

theorem exec_bstrpickD_of_le {msbd lsbd : Fin 64} (h : lsbd ≤ msbd) (rd rj : Reg) (s : State) :
    exec (.bstrpickD rd rj msbd lsbd) s = complete rd (pickField (s.readReg rj) msbd.val lsbd.val) s :=
  (exec_bstrpickD rd rj msbd lsbd s).trans (if_pos (decide_eq_true h))

/-- Within the field the extraction takes the value's own bits, above it 0. -/
theorem getLsbD_pickField_ite {W : Nat} (v : BitVec W) {msb lsb i : Nat} (hi : i < W) :
    (pickField v msb lsb).getLsbD i = if i ≤ msb - lsb then v.getLsbD (lsb + i) else false := by
  rw [getLsbD_pickField v hi]
  by_cases h : i ≤ msb - lsb <;> simp [h]

/-- A field of the low word is that field of the register. -/
theorem getLsbD_pickField_lowWord (v : DWord) {msb lsb i : Nat} (hm : msb < 32) (hl : lsb ≤ msb) (hi : i < 32) :
    (pickField (lowWord v) msb lsb).getLsbD i = if i ≤ msb - lsb then v.getLsbD (lsb + i) else false := by
  rw [getLsbD_pickField_ite _ hi]
  refine if_ctx_congr Iff.rfl (fun hfield => ?_) fun _ => rfl
  exact getLsbD_lowWord_of_lt v _ (by omega)

/-- Settles O25: the result is the sign extension of the field of the low word. -/
theorem bstrpickWExtractsField : Obligations.BstrpickWExtractsField := fun rd rj msbw lsbw =>
  ⟨isWritten_of_encode rfl (encodeMsbLsb_layoutW 0b00000000011#11 1#1 rd rj msbw lsbw), fun h s =>
    completesWith_of_exec (exec_bstrpickW_of_le h rd rj s) fun i hi =>
      (getLsbD_sext64_word _ hi).trans (getLsbD_pickField_lowWord _ msbw.isLt h (wordBit_lt i))⟩

/-- Settles O26: the result is the field of the register. -/
theorem bstrpickDExtractsField : Obligations.BstrpickDExtractsField := fun rd rj msbd lsbd =>
  ⟨isWritten_of_encode rfl (encodeMsbLsb_layoutD 0b0000000011#10 rd rj msbd lsbd), fun h s =>
    completesWith_of_exec (exec_bstrpickD_of_le h rd rj s) fun _ hi => getLsbD_pickField_ite _ hi⟩

/-! ### As a shift and a mask (R180) -/

/-- The shift right-justifies the field, the mask clears what stands above it. -/
theorem pickField_eq_shift_mask {W : Nat} (v : BitVec W) (msb lsb : Nat) :
    pickField v msb lsb = (v >>> lsb) &&& BitVec.ofNat W (2 ^ (msb - lsb + 1) - 1) := by
  refine BitVec.eq_of_getLsbD_eq fun i hi => ?_
  rw [getLsbD_pickField v hi, BitVec.getLsbD_and, BitVec.getLsbD_ushiftRight, getLsbD_lowOnes hi, Bool.and_comm,
    decide_eq_decide.2 Nat.lt_succ_iff]

/-- Settles O33: each form completes with its field, which is the formula of R180. -/
theorem bstrpickIsShiftMaskFormula : Obligations.BstrpickIsShiftMaskFormula := by
  refine fun rd rj s => ⟨fun msbw lsbw h => ?_, fun msbd lsbd h => ?_⟩
  · rw [exec_bstrpickW_of_le h, pickField_eq_shift_mask, lowWord_eq_setWidth]
    rfl
  · rw [exec_bstrpickD_of_le h, pickField_eq_shift_mask]
    rfl

/-! ### No field (R183, R205) -/

/-- Settles O30: a term with msb < lsb is not well-formed, and executing such a term is the fault. -/
theorem bstrpickFaultsOnMsbBelowLsb : Obligations.BstrpickFaultsOnMsbBelowLsb := fun rd rj s =>
  ⟨fun msbw lsbw h => rejected_and_faults (i := .bstrpickW rd rj msbw lsbw) (decide_eq_false h.not_ge) s,
    fun msbd lsbd h => rejected_and_faults (i := .bstrpickD rd rj msbd lsbd) (decide_eq_false h.not_ge) s⟩

end Sys2Proof.Machine
end

section
/-! MASKEQZ and MASKNEZ (R190 to R192): each lets x[rj] through by whether x[rk] is zero, and the two with one rk make a select. -/

namespace Sys2Proof.Machine

theorem exec_maskeqz (rd rj rk : Reg) (s : State) :
    exec (.maskeqz rd rj rk) s = complete rd (if s.readReg rk = 0 then 0 else s.readReg rj) s := rfl

theorem exec_masknez (rd rj rk : Reg) (s : State) :
    exec (.masknez rd rj rk) s = complete rd (if s.readReg rk = 0 then s.readReg rj else 0) s := by
  simp only [exec, execMasknez, ne_eq, ite_not]

/-- Settles O27: the meaning is the choice of R191. -/
theorem maskeqzZeroesOnZero : Obligations.MaskeqzZeroesOnZero := fun rd rj rk =>
  ⟨isWritten_of_encode rfl (encode3R_layout 0b00000000000100110#17 rd rj rk), fun s =>
    completesWith_of_exec (exec_maskeqz rd rj rk s) rfl⟩

/-- Settles O28: the meaning is the choice of R192. -/
theorem masknezZeroesOnNonzero : Obligations.MasknezZeroesOnNonzero := fun rd rj rk =>
  ⟨isWritten_of_encode rfl (encode3R_layout 0b00000000000100111#17 rd rj rk), fun s =>
    completesWith_of_exec (exec_masknez rd rj rk s) rfl⟩

/-- Settles O38: the first instruction leaves b and c as they are and the second leaves r1, so both test the same x[c]; it zeroes
one of the two results, and the other is the value selected. -/
theorem maskPairSelects : Obligations.MaskPairSelects := by
  intro r1 r2 a b c s h1 h2 h12 h1b h1c
  obtain ⟨t, ht, htreg, -⟩ := complete_spec r1 (if s.readReg c = 0 then 0 else s.readReg a) s
  obtain ⟨u, hu, hureg, -⟩ := complete_spec r2 (if t.readReg c = 0 then t.readReg b else 0) t
  have hb : t.readReg b = s.readReg b := by rw [htreg, if_neg fun h => h1b h.1.symm]
  have hc : t.readReg c = s.readReg c := by rw [htreg, if_neg fun h => h1c h.1.symm]
  have hr1 : u.readReg r1 = if s.readReg c = 0 then 0 else s.readReg a := by
    rw [hureg, if_neg fun h => h12 h.1, htreg, if_pos ⟨rfl, h1⟩]
  have hr2 : u.readReg r2 = if s.readReg c = 0 then s.readReg b else 0 := by
    rw [hureg, if_pos ⟨rfl, h2⟩, hb, hc]
  refine ⟨t, u, ht, (exec_masknez r2 b c t).trans hu, ?_⟩
  rw [hr1, hr2]
  by_cases hz : s.readReg c = 0
  · rw [if_pos hz, if_pos hz, if_neg (not_not.2 hz)]
    exact ⟨.inl rfl, BitVec.zero_or⟩
  · rw [if_neg hz, if_neg hz, if_pos hz]
    exact ⟨.inr rfl, BitVec.or_zero⟩

end Sys2Proof.Machine
end

section
/-! The outcome of a step (R200, R208): which check answers, in the order of the spec, and what each answer says of the state. -/

namespace Sys2Proof.Machine

/-! ### The checks of the fetch, (1) to (3) of R208 -/

theorem step_at_end {s : State} (h : s.pc.toNat = s.endAddr) : step s = .refused (.final s) :=
  step_of_fetch_error (if_pos h)

theorem step_misaligned {s : State} (he : s.pc.toNat ≠ s.endAddr) (ha : s.pc.toNat % 4 ≠ 0) :
    step s = .fault (.fetchMisaligned s.pc) :=
  step_of_fetch_error ((if_neg he).trans (if_pos ha))

theorem step_outOfText {s : State} (he : s.pc.toNat ≠ s.endAddr) (ha : s.pc.toNat % 4 = 0) (ht : ¬ s.inText) :
    step s = .fault (.fetchOutOfText s.pc) :=
  step_of_fetch_error ((if_neg he).trans ((if_neg (not_not.2 ha)).trans (if_pos ht)))

/-- An address is a multiple of 4 when its two lowest bits are 0 (R203). -/
theorem extractLsb_1_0_eq_zero_iff (a : DWord) : a.extractLsb 1 0 = 0 ↔ a.toNat % 4 = 0 := by
  rw [← BitVec.toNat_inj]
  simp

/-! ### The checks of the word, (4) to (6) of R208 -/

/-- What a step at a word of the text does: refuse a word of no row, and else execute the term of the row it fits, which faults
with this very word where the term is not well-formed. -/
theorem step_of_fetch {s : State} {w : Word} (h : fetch s = .ok w) :
    ((∀ r ∈ opcodeTable, r.fits w = false) ∧ step s = .refused (.notInScope s.pc w)) ∨
    ∃ r ∈ opcodeTable, r.fits w = true ∧
      ((r.build w).wellFormed = false ∧ step s = .fault (.msbLessThanLsb s.pc w) ∨
       (r.build w).wellFormed = true ∧ ∃ t v, step s = .next t ∧ WritesOnly s t (r.build w).dest v) := by
  cases hd : decodeWord w with
  | error e => exact .inl ⟨(decodeWord_error hd).2, step_of_decode_error h hd⟩
  | ok i =>
    obtain ⟨r, hr, hfits, rfl⟩ := decodeWord_ok hd
    have hstep : step s = exec (r.build w) s := step_of_decode_ok h hd
    refine .inr ⟨r, hr, hfits, ?_⟩
    rw [hstep]
    cases hwf : (r.build w).wellFormed with
    | false => exact .inl ⟨rfl, by rw [exec_of_not_wellFormed hwf, encode_build hr hfits]⟩
    | true => exact .inr ⟨rfl, (everyWellFormedInstructionCompletes _ s).1 hwf⟩

/-- Settles O50: the checks of the fetch one after the other, then what a step at a word of the text does. -/
theorem stepChecksInOrder : Obligations.StepChecksInOrder := by
  intro s
  refine ⟨step_at_end, fun he => ⟨fun ha => ?_, fun ha => ⟨fun hout => ?_, fun hin w hw => ?_⟩⟩⟩
  · exact step_misaligned he (mt (extractLsb_1_0_eq_zero_iff s.pc).2 ha)
  · have ht : ¬ s.inText := fun ht => hout.elim (fun h => h.not_ge ht.1) fun h => h.not_ge ht.2
    exact step_outOfText he ((extractLsb_1_0_eq_zero_iff s.pc).1 ha) ht
  · have hf : fetch s = .ok w := fetch_of_word ((extractLsb_1_0_eq_zero_iff s.pc).1 ha) hin hw
    rcases step_of_fetch hf with ⟨hno, hs⟩ | ⟨r, hr, hfits, hout⟩
    · exact .inl ⟨fun r hr => by simpa [Row.fits] using hno r hr, hs⟩
    · exact .inr ⟨r, hr, (r.fits_iff w).1 hfits, hout.imp id fun ⟨hwf, t, _, ht, _⟩ => ⟨hwf, t, ht⟩⟩

/-- Settles O51: a fetch that answers no word ends the step as Final or as a fetch fault, and at a word the step refuses it,
faults or completes. -/
theorem stepHasOneOfFourOutcomes : Obligations.StepHasOneOfFourOutcomes := by
  intro s
  cases hf : fetch s with
  | error o =>
    have hs : step s = o := step_of_fetch_error hf
    rcases fetch_error hf with ⟨he, rfl⟩ | ⟨-, -, rfl⟩ | ⟨-, -, -, rfl⟩
    · exact .inr (.inl ⟨he, hs⟩)
    · exact .inr (.inr (.inl ⟨_, hs, .inl rfl⟩))
    · exact .inr (.inr (.inl ⟨_, hs, .inr (.inl rfl)⟩))
  | ok w =>
    obtain ⟨-, -, -, hw⟩ := fetch_ok hf
    rcases step_of_fetch hf with ⟨hno, hs⟩ | ⟨r, hr, hfits, ⟨-, hs⟩ | ⟨hwf, t, v, hs, hwrites⟩⟩
    · exact .inr (.inr (.inr ⟨w, hw, hno, hs⟩))
    · exact .inr (.inr (.inl ⟨_, hs, .inr (.inr ⟨w, rfl⟩)⟩))
    · exact .inl ⟨w, r.build w, t, v, hw, decodeWord_of_fits hr hfits, hwf, hs, hwrites⟩

end Sys2Proof.Machine
end

section
/-! A text of well-formed instructions runs to its end (R233): the run executes instruction k at step k, so it goes through the
states that executing the list in order gives, and stands at the end address after the last. -/

namespace Sys2Proof.Machine

/-! ### Executing a list in order (R47) -/

theorem execAll_append (is js : List Instr) (s : State) : execAll (is ++ js) s = (execAll is s).bind (execAll js) := by
  induction is generalizing s with
  | nil => rfl
  | cons i is ih =>
    rw [List.cons_append, execAll, execAll]
    cases exec i s with
    | next t => exact ih t
    | fault f => rfl
    | refused r => rfl

theorem execAll_singleton {i : Instr} {s t : State} (h : exec i s = .next t) : execAll [i] s = some t := by
  rw [execAll, h]
  rfl

/-! ### The run -/

section
variable {base : DWord} {is : List Instr} {initGR : Vector DWord 31} {k : Nat} {s : State}

/-- A run of an admissible text that stands at the address of instruction `k` executes it. -/
theorem step_at_instruction (hadm : Admissible base (is.map encode)) {n : Nat}
    (hr : Reaches (State.launch base (is.map encode) initGR) n s) (hk : k < is.length)
    (hpc : s.pc.toNat = base.toNat + 4 * k) : step s = exec is[k] s := by
  obtain ⟨-, hfetch⟩ := fetchReturnsThePlacedWord base (is.map encode) initGR n s hadm hr
  obtain ⟨w, hplaced, hf⟩ := hfetch (by rw [hpc, List.length_map]; omega)
  have hw : encode is[k] = w := by
    simpa [show (s.pc.toNat - base.toNat) / 4 = k by omega, hk] using hplaced
  exact step_of_decode_ok hf (hw ▸ decodeWord_encode is[k])

/-- After `k` steps the run has the state that executing the first `k` instructions gives, and stands at the address just past
them. -/
theorem reaches_execAll_take (hwf : ∀ i ∈ is, i.wellFormed = true) (hadm : Admissible base (is.map encode)) (hk : k ≤ is.length) :
    ∃ s, Reaches (State.launch base (is.map encode) initGR) k s ∧
      execAll (is.take k) (State.launch base (is.map encode) initGR) = some s ∧ s.pc.toNat = base.toNat + 4 * k := by
  induction k with
  | zero => exact ⟨_, reaches_zero.2 rfl, rfl, rfl⟩
  | succ k ih =>
    obtain ⟨s, hr, hall, hpc⟩ := ih (Nat.le_of_succ_le hk)
    obtain ⟨t, v, ht, -, htpc, -⟩ := (everyWellFormedInstructionCompletes is[k] s).1 (hwf _ (List.getElem_mem hk))
    refine ⟨t, reaches_snoc.2 ⟨s, hr, (step_at_instruction hadm hr hk hpc).trans ht⟩, ?_, ?_⟩
    · rw [List.take_succ_eq_append_getElem hk, execAll_append, hall]
      exact execAll_singleton ht
    · have hend : base.toNat + 4 * is.length < 2 ^ 64 := by simpa using hadm.2
      have hadd : (s.pc + 4).toNat = s.pc.toNat + 4 := BitVec.toNat_add_of_lt (show s.pc.toNat + 4 < 2 ^ 64 by omega)
      rw [htpc, hadd, hpc]
      omega

end

/-- Settles O58: each step below L stands at its instruction, and after L steps the pc is the end address of the text. -/
theorem textOfInstructionsRunsToFinal : Obligations.TextOfInstructionsRunsToFinal := by
  intro base is initGR hwf hadm
  refine ⟨fun k hk => ?_, ?_⟩
  · obtain ⟨s, hr, -, hpc⟩ := reaches_execAll_take hwf hadm hk.le
    exact ⟨s, hr, step_at_instruction hadm hr hk hpc⟩
  · obtain ⟨t, hr, hall, hpc⟩ := reaches_execAll_take (initGR := initGR) hwf hadm le_rfl
    have hend : t.endAddr = base.toNat + 4 * is.length := by
      rw [(sameText_of_reaches hr).endAddr, State.endAddr, State.launch_progBase, State.launch_progLen, List.length_map]
    exact ⟨t, by rwa [List.take_length] at hall, hr, hpc, step_at_end (hpc.trans hend.symm)⟩

end Sys2Proof.Machine
end
